-- ==== Sys2Proof/Word.lean ====
section
/-! DEFINITION. The word types of CA-CORE: bytes (registers, cells, operand bytes; 00_scope.md R8) and the
9-bit program counter (10_state.md R26). -/

namespace Sys2Proof

/-- A register value, a memory cell or an instruction byte: an unsigned integer in 0..255 (00_scope.md R8). -/
abbrev Byte := BitVec 8

/-- The program counter and `err.val`: 9 bits, so that 256 can be held (10_state.md R26, R30). -/
abbrev Word9 := BitVec 9

/-- The index of a general register, 0..7 (10_state.md R21). -/
abbrev RegIx := Fin 8

end Sys2Proof
end

