-- ==== Sys2Proof/Syntax.lean ====
section
/-! DEFINITION. The 21 instructions of 30_encoding.md R88, one constructor per row of spec/opcode_table.json.
An operand is the whole operand byte: a register operand above 7 is a legal byte to fetch and faults when the
instruction runs (30_encoding.md R83, R90), so it must be expressible here. -/

namespace Sys2Proof

/-- An instruction with its operand bytes: `a` is `op0` (the byte at `pc + 1`), the second argument is `op1`
(the byte at `pc + 2`); their roles are those of 30_encoding.md R84. -/
inductive Instr where
  /-- HLT (42_data_io_halt.md R182). -/
  | hlt
  /-- RET (43_stack_call.md R203). -/
  | ret
  /-- PUSH Ra (43_stack_call.md R200). -/
  | push (a : Byte)
  /-- POP Ra (43_stack_call.md R201). -/
  | pop (a : Byte)
  /-- PRN Ra (42_data_io_halt.md R181). -/
  | prn (a : Byte)
  /-- CALL Ra (43_stack_call.md R202). -/
  | call (a : Byte)
  /-- INC Ra (41_alu.md R147). -/
  | inc (a : Byte)
  /-- DEC Ra (41_alu.md R148). -/
  | dec (a : Byte)
  /-- NOT Ra (41_alu.md R152). -/
  | not (a : Byte)
  /-- LDI Ra,imm (42_data_io_halt.md R180). -/
  | ldi (a imm : Byte)
  /-- ADD Ra,Rb (41_alu.md R142). -/
  | add (a b : Byte)
  /-- SUB Ra,Rb (41_alu.md R143). -/
  | sub (a b : Byte)
  /-- MUL Ra,Rb (41_alu.md R144). -/
  | mul (a b : Byte)
  /-- DIV Ra,Rb (41_alu.md R145). -/
  | div (a b : Byte)
  /-- MOD Ra,Rb (41_alu.md R146). -/
  | mod (a b : Byte)
  /-- CMP Ra,Rb (41_alu.md R155). -/
  | cmp (a b : Byte)
  /-- AND Ra,Rb (41_alu.md R149). -/
  | and (a b : Byte)
  /-- OR Ra,Rb (41_alu.md R150). -/
  | or (a b : Byte)
  /-- XOR Ra,Rb (41_alu.md R151). -/
  | xor (a b : Byte)
  /-- SHL Ra,Rb (41_alu.md R153). -/
  | shl (a b : Byte)
  /-- SHR Ra,Rb (41_alu.md R154). -/
  | shr (a b : Byte)
  deriving DecidableEq, Repr

end Sys2Proof
end

