-- ==== Sys2Proof/WellFormed.lean ====
section
/-! DEFINITION. Which instructions are well formed: those whose register operands name a register that exists
(30_encoding.md R83: "legal only when `i <= 7`"). An instruction that is not well formed still decodes, still
encodes, and has a meaning: it takes the error OutOfBoundsAccess(Reg, i) (10_state.md R23). -/

namespace Sys2Proof

/-- A register operand byte is legal: its whole value is in 0..7 (30_encoding.md R83 (a)). -/
def regOk (a : Byte) : Bool := decide (a.toNat ≤ 7)

/-- The register operand bytes of an instruction, `op0` first (30_encoding.md R84); LDI's `op1` is an immediate
and has no illegal value (R83 (b)). -/
def regOperands : Instr → List Byte
  | .hlt => []
  | .ret => []
  | .push a => [a]
  | .pop a => [a]
  | .prn a => [a]
  | .call a => [a]
  | .inc a => [a]
  | .dec a => [a]
  | .not a => [a]
  | .ldi a _ => [a]
  | .add a b => [a, b]
  | .sub a b => [a, b]
  | .mul a b => [a, b]
  | .div a b => [a, b]
  | .mod a b => [a, b]
  | .cmp a b => [a, b]
  | .and a b => [a, b]
  | .or a b => [a, b]
  | .xor a b => [a, b]
  | .shl a b => [a, b]
  | .shr a b => [a, b]

/-- Every register operand of the instruction is legal. -/
def Instr.wf (i : Instr) : Bool := (regOperands i).all regOk

end Sys2Proof
end

