-- ==== Sys2Proof/Decode.lean ====
section
/-! DEFINITION. The opcode map, the Dispatch Table, the decoder (total on any bytes, rejecting by name) and the
encoder (30_encoding.md; 40_engine.md section 1). The opcode values are the spec's choice, from its general
knowledge of the LS-8 machine (30_encoding.md R86, D1, G1; log 1). -/

namespace Sys2Proof

/-! ### Opcode values (30_encoding.md R86) -/

abbrev opcHlt : Byte := 0x01#8
abbrev opcRet : Byte := 0x11#8
abbrev opcPush : Byte := 0x45#8
abbrev opcPop : Byte := 0x46#8
abbrev opcPrn : Byte := 0x47#8
abbrev opcCall : Byte := 0x50#8
abbrev opcInc : Byte := 0x65#8
abbrev opcDec : Byte := 0x66#8
abbrev opcNot : Byte := 0x69#8
abbrev opcLdi : Byte := 0x82#8
abbrev opcAdd : Byte := 0xA0#8
abbrev opcSub : Byte := 0xA1#8
abbrev opcMul : Byte := 0xA2#8
abbrev opcDiv : Byte := 0xA3#8
abbrev opcMod : Byte := 0xA4#8
abbrev opcCmp : Byte := 0xA7#8
abbrev opcAnd : Byte := 0xA8#8
abbrev opcOr : Byte := 0xAA#8
abbrev opcXor : Byte := 0xAB#8
abbrev opcShl : Byte := 0xAC#8
abbrev opcShr : Byte := 0xAD#8

/-! ### Fields of the opcode byte (30_encoding.md R81, R92) -/

/-- `N = opcode[7:6]`, the slice as an unsigned number: the operand count; 3 is no count (30_encoding.md R80,
R89). -/
def operandCount (ir : Byte) : Nat := ir.toNat / 64

/-- `A = opcode[5]`: 1 for an ALU-class instruction (30_encoding.md R81). -/
def aluClass (ir : Byte) : Bool := ir.getLsbD 5

/-! ### The Dispatch Table (40_engine.md R110 to R113) -/

/-- An entry of the Dispatch Table, tagged by its operand arity (40_engine.md R112); what it selects is the
instruction, whose meaning is `Machine.exec`'s. -/
inductive Handler where
  | arity0 (i : Instr)
  | arity1 (mk : Byte → Instr)
  | arity2 (mk : Byte → Byte → Instr)

/-- The arity an entry carries (40_engine.md R112). -/
def handlerArity : Handler → Nat
  | .arity0 _ => 0
  | .arity1 _ => 1
  | .arity2 _ => 2

/-- The entry applied to "exactly the decoded operand bytes" (40_engine.md R118); none when their number is not
its arity, which R112 excludes. -/
def applyHandler : Handler → List Byte → Option Instr
  | .arity0 i, [] => some i
  | .arity1 mk, [a] => some (mk a)
  | .arity2 mk, [a, b] => some (mk a b)
  | _, _ => none

/-- The 21 entries of 40_engine.md R111, keyed by opcode byte. -/
def dispatchTable : List (Byte × Handler) := [
  (opcHlt, .arity0 .hlt),
  (opcRet, .arity0 .ret),
  (opcPush, .arity1 .push),
  (opcPop, .arity1 .pop),
  (opcPrn, .arity1 .prn),
  (opcCall, .arity1 .call),
  (opcInc, .arity1 .inc),
  (opcDec, .arity1 .dec),
  (opcNot, .arity1 .not),
  (opcLdi, .arity2 .ldi),
  (opcAdd, .arity2 .add),
  (opcSub, .arity2 .sub),
  (opcMul, .arity2 .mul),
  (opcDiv, .arity2 .div),
  (opcMod, .arity2 .mod),
  (opcCmp, .arity2 .cmp),
  (opcAnd, .arity2 .and),
  (opcOr, .arity2 .or),
  (opcXor, .arity2 .xor),
  (opcShl, .arity2 .shl),
  (opcShr, .arity2 .shr)]

/-- The total function of 40_engine.md R110: the entry of an opcode byte, or none where it is absent. -/
def dispatch (ir : Byte) : Option Handler := dispatchTable.lookup ir

/-- Part 4 of the cycle with the operand bytes in hand: the instruction an opcode byte and its operand bytes
select (40_engine.md R114). -/
def lookupInstr (ir : Byte) (ops : List Byte) : Option Instr :=
  match dispatch ir with
  | none => none
  | some h => applyHandler h ops

/-! ### The decoder -/

/-- Why a byte string is no instruction. -/
inductive DecodeError where
  /-- The string ends before byte `k` of the instruction (byte 0 is the opcode). The engine, which reads memory,
  reports OutOfBoundsAccess there instead (40_engine.md R116). -/
  | missingByte (k : Nat)
  /-- InvalidOpcode: operand count 3, or no entry in the Dispatch Table (30_encoding.md R89). -/
  | invalidOpcode (ir : Byte)
  deriving DecidableEq, Repr

/-- The instruction at the head of a byte string and the bytes after it. The order of the refusals is the
engine's: count 3, then missing operand bytes, then an absent opcode (40_engine.md R114, 30_encoding.md R91). -/
def decode : List Byte → Except DecodeError (Instr × List Byte)
  | [] => .error (.missingByte 0)
  | ir :: rest =>
    if operandCount ir = 3 then .error (.invalidOpcode ir)
    else if rest.length < operandCount ir then .error (.missingByte (rest.length + 1))
    else
      match lookupInstr ir (rest.take (operandCount ir)) with
      | none => .error (.invalidOpcode ir)
      | some i => .ok (i, rest.drop (operandCount ir))

/-! ### The encoder -/

/-- The opcode byte of an instruction (30_encoding.md R86). -/
def opcodeOf : Instr → Byte
  | .hlt => opcHlt
  | .ret => opcRet
  | .push _ => opcPush
  | .pop _ => opcPop
  | .prn _ => opcPrn
  | .call _ => opcCall
  | .inc _ => opcInc
  | .dec _ => opcDec
  | .not _ => opcNot
  | .ldi _ _ => opcLdi
  | .add _ _ => opcAdd
  | .sub _ _ => opcSub
  | .mul _ _ => opcMul
  | .div _ _ => opcDiv
  | .mod _ _ => opcMod
  | .cmp _ _ => opcCmp
  | .and _ _ => opcAnd
  | .or _ _ => opcOr
  | .xor _ _ => opcXor
  | .shl _ _ => opcShl
  | .shr _ _ => opcShr

/-- The operand bytes of an instruction, `op0` first (30_encoding.md R82, R84). -/
def operandsOf : Instr → List Byte
  | .hlt => []
  | .ret => []
  | .push a => [a]
  | .pop a => [a]
  | .prn a => [a]
  | .call a => [a]
  | .inc a => [a]
  | .dec a => [a]
  | .not a => [a]
  | .ldi a imm => [a, imm]
  | .add a b => [a, b]
  | .sub a b => [a, b]
  | .mul a b => [a, b]
  | .div a b => [a, b]
  | .mod a b => [a, b]
  | .cmp a b => [a, b]
  | .and a b => [a, b]
  | .or a b => [a, b]
  | .xor a b => [a, b]
  | .shl a b => [a, b]
  | .shr a b => [a, b]

/-- The bytes of an instruction at ascending addresses (20_memory.md R55). -/
def encode (i : Instr) : List Byte := opcodeOf i :: operandsOf i

/-- The handler sets `pc` itself: CALL and RET only (40_engine.md R111, R119). -/
def setsPc : Instr → Bool
  | .ret => true
  | .call _ => true
  | _ => false

/-! ### Words as spec/opcode_table.json numbers them -/

/-- The three bytes of a table word, the first at the lowest address; every bit above `nbits` is 0. -/
def tableBytes (nbits w : Nat) : List Byte :=
  let v := w % 2 ^ nbits
  [BitVec.ofNat 8 v, BitVec.ofNat 8 (v / 256), BitVec.ofNat 8 (v / 65536)]

/-- What the decoder reads from a table word (none where it refuses). -/
def decodeTableWord (nbits w : Nat) : Option Instr :=
  match decode (tableBytes nbits w) with
  | .ok (i, _) => some i
  | .error _ => none

end Sys2Proof
end

