-- ==== Sys2Proof/Config.lean ====
section
/-! DEFINITION. The fixed parameters of CA-CORE (00_scope.md R6). There is no free value: the spec leaves no
value open (93_implementation_defined.md closes every point by a rule). -/

namespace Sys2Proof.Config

/-- `MEM_SIZE`: 256 cells, addresses 0..255 (00_scope.md R6). -/
abbrev memSize : Nat := 256

/-- `SP_INDEX`: `x[7]` is the stack pointer (00_scope.md R6, 10_state.md R25). -/
abbrev spIndex : RegIx := 7

/-- `SP_RESET`: 0xF4 (00_scope.md R6, 10_state.md R36). -/
abbrev spReset : Byte := 0xF4#8

/-- `PC_RESET`: 0. PRESUMED by the spec itself (decision D2, G3; log 2); unsafe. -/
abbrev pcReset : Word9 := 0#9

/-- `LOAD_BASE`: 0. PRESUMED by the spec itself (decision D2, G3; log 2); unsafe. -/
abbrev loadBase : Nat := 0

end Sys2Proof.Config
end

