-- ==== Sys2Proof/Machine/State.lean ====
section
/-! DEFINITION. The state of CA-CORE, whole (10_state.md R20), as plain data; the reasons a step can stop; the
state after reset (10_state.md R36, R37). -/

namespace Sys2Proof.Machine

/-- The comparison state `fl` (10_state.md R29). -/
inductive Fl where
  /-- No CMP has executed since reset. -/
  | none
  | less
  | equal
  | greater
  deriving DecidableEq, Repr

/-- The run state of the engine (10_state.md R28). -/
inductive Run where
  | running
  | halted
  deriving DecidableEq, Repr

/-- `err.kind` (10_state.md R30, 60_exceptions.md R230). -/
inductive ErrKind where
  | none
  | invalidOpcode
  | divisionByZero
  | outOfBoundsAccess
  /-- Kept, and raised by no step (60_exceptions.md R235). -/
  | unsupportedAluOperation
  deriving DecidableEq, Repr

/-- `err.space`: which index was out of bounds (10_state.md R30). -/
inductive Space where
  | mem
  | reg
  deriving DecidableEq, Repr

/-- The error record `err` (10_state.md R30). -/
structure Err where
  kind : ErrKind
  space : Space
  val : Word9
  deriving DecidableEq, Repr

/-- The reset value of `err`: (None, Mem, 0) (10_state.md R37). -/
abbrev noErr : Err := ⟨.none, .mem, 0#9⟩

/-- Memory as data: the cells that do not hold 0, by address (see `Memory.wf` in Ops.lean). An address that is
not listed reads as 0, the reset contents of every cell (10_state.md R36). -/
abbrev Memory := List Host.Cell

/-- The complete architectural state (10_state.md R20). -/
structure State where
  /-- `x[0]` .. `x[7]`; `x[7]` is the stack pointer (10_state.md R21, R25). -/
  regs : Vector Byte 8
  /-- The program counter, 9 bits (10_state.md R26). -/
  pc : Word9
  /-- The comparison state (10_state.md R29). -/
  fl : Fl
  /-- Running or Halted (10_state.md R28). -/
  run : Run
  /-- Why the engine stopped (10_state.md R30). -/
  err : Err
  /-- The 256 cells (10_state.md R35). -/
  mem : Memory
  /-- The values PRN has emitted, oldest first (10_state.md R31). -/
  out : List Byte
  deriving DecidableEq, Repr

/-- Why a step does not exist. DEDUCED from 40_engine.md R123 ("A model gives the `Halted` state no successor
(it is final when `err.kind = None`, faulted when not)"); log 3. -/
inductive Fault where
  /-- Raised by `step` alone, in a Halted state whose `err.kind` is None: the run ended in a clean halt. Safe: the
  hardware takes no step there either. -/
  | halted
  /-- Raised by `step` alone, in a Halted state whose `err.kind` is not None: the run ended in an error. Safe: the
  hardware takes no step there either. -/
  | failed
  deriving DecidableEq, Repr

/-- Why an instruction has no meaning. -/
inductive Refusal where
  /-- Would be raised by an arm of `exec` whose instruction had no meaning yet; no arm raises it. Safe. -/
  | notModelled (mnemonic : String)
  deriving DecidableEq, Repr

/-- What a step, a meaning or a part of one answers. -/
abbrev Answer := Host.Outcome State Fault Refusal

/-- The state after reset ("machine construction"): 10_state.md R36 (memory zero, `x[7] = 0xF4`, Running) and R37
(the rest, which the spec fixes by its own decisions D2, D3, D5, D7, D21; log 2). -/
def State.reset : State where
  regs := #v[0#8, 0#8, 0#8, 0#8, 0#8, 0#8, 0#8, Config.spReset]
  pc := Config.pcReset
  fl := .none
  run := .running
  err := noErr
  mem := []
  out := []

end Sys2Proof.Machine
end

