-- ==== Sys2Proof/Machine/Ops.lean ====
section
/-! DEFINITION. The named operations over memory, registers and the program counter, and error entry: the
primitives of 00_scope.md R9. A check that can raise takes what to do next as an argument, so that, as R9 asks,
an instruction that raises has written nothing. -/

namespace Sys2Proof.Machine

/-! ### Narrowing (00_scope.md R8) -/

/-- `mask8(v) = v mod 256`, also for a negative `v` (00_scope.md R8). -/
def mask8 (v : Int) : Byte := BitVec.ofInt 8 v

/-- An address or index reduced mod 512, as `err.val` holds it (10_state.md R30). -/
def mask9 (v : Int) : Word9 := BitVec.ofInt 9 v

/-- `zext_9`: an 8-bit value as a 9-bit one (00_scope.md R9). -/
def zext9 (v : Byte) : Word9 := v.zeroExtend 9

/-! ### Memory as data (10_state.md R35, R36) -/

/-- The value at an address; an unlisted address reads as 0 (10_state.md R36, 20_memory.md R52). -/
def memGet : Memory → Nat → Byte
  | [], _ => 0#8
  | (b, w) :: rest, a => if b = a then w else memGet rest a

/-- The memory with no entry for an address. -/
def memDrop : Memory → Nat → Memory
  | [], _ => []
  | (b, w) :: rest, a => if b = a then memDrop rest a else (b, w) :: memDrop rest a

/-- The memory with an entry put before the first entry of a higher address. -/
def memInsert : Memory → Nat → Byte → Memory
  | [], a, v => [(a, v)]
  | (b, w) :: rest, a, v => if a < b then (a, v) :: (b, w) :: rest else (b, w) :: memInsert rest a v

/-- The memory after writing a value at an address; writing 0, what an unlisted address reads as, lists
nothing. -/
def memPut (m : Memory) (a : Nat) (v : Byte) : Memory :=
  if v = 0#8 then memDrop m a else memInsert (memDrop m a) a v

/-- Addresses strictly rising from `lo`, all below 256, and no entry equal to 0. -/
def memSorted : Nat → Memory → Bool
  | _, [] => true
  | lo, (a, v) :: rest =>
    decide (lo ≤ a) && decide (a < Config.memSize) && decide (v ≠ 0#8) && memSorted (a + 1) rest

/-- The canonical form of memory: equal memories are equal lists. -/
def Memory.wf (m : Memory) : Bool := memSorted 0 m

/-- The cell at an address, `mem[a]`. -/
def State.cell (s : State) (a : Nat) : Byte := memGet s.mem a

/-- The state after `mem[a] <- v`. -/
def State.store (s : State) (a : Nat) (v : Byte) : State := { s with mem := memPut s.mem a v }

/-! ### Registers (10_state.md R21): the one home of every read and write -/

/-- `x[i]`. No register is hardwired (10_state.md R21). -/
def State.reg (s : State) (i : RegIx) : Byte := s.regs[i.val]

/-- `x[i] <- v`. -/
def State.setReg (s : State) (i : RegIx) (v : Byte) : State := { s with regs := s.regs.set i.val v }

/-- The stack pointer, `x[7]` (10_state.md R25). -/
def State.sp (s : State) : Byte := s.reg Config.spIndex

/-- `x[7] <- v`. -/
def State.setSp (s : State) (v : Byte) : State := s.setReg Config.spIndex v

/-! ### The other elements -/

/-- `fl <- c` (00_scope.md R9). -/
def State.setFl (s : State) (c : Fl) : State := { s with fl := c }

/-- `Emit(v)`: append to the output stream (10_state.md R31). -/
def State.emit (s : State) (v : Byte) : State := { s with out := s.out ++ [v] }

/-- `run <- Halted` (00_scope.md R9). -/
def State.halt (s : State) : State := { s with run := .halted }

/-- `pc <- t` (00_scope.md R9). -/
def State.jump (s : State) (t : Word9) : State := { s with pc := t }

/-- `pc <- pc + 1 + n` in 9 bits (40_engine.md R120). It cannot wrap in a step (R121); from a `pc` of 509 or more,
which no step reaches, it would: DESIGN CHOICE (log 6), safe. -/
def State.advance (s : State) (n : Nat) : State := { s with pc := s.pc + BitVec.ofNat 9 (1 + n) }

/-! ### Error entry (60_exceptions.md R230 to R237) -/

/-- An error and what it reports: the `K(info)` of `raise K(info)` (00_scope.md R9, 60_exceptions.md R230). -/
inductive Cause where
  | invalidOpcode (ir : Byte)
  | divisionByZero (ir : Byte)
  | outOfBounds (space : Space) (index : Int)
  | unsupportedAlu (ir : Byte)
  deriving DecidableEq, Repr

/-- The record `err` an error leaves (10_state.md R30): `space` is Mem unless the error is OutOfBoundsAccess. -/
def errRecord : Cause → Err
  | .invalidOpcode ir => ⟨.invalidOpcode, .mem, zext9 ir⟩
  | .divisionByZero ir => ⟨.divisionByZero, .mem, zext9 ir⟩
  | .outOfBounds space index => ⟨.outOfBoundsAccess, space, mask9 index⟩
  | .unsupportedAlu ir => ⟨.unsupportedAluOperation, .mem, zext9 ir⟩

/-- The state after error entry (60_exceptions.md R236): Halted, the record written, every other element as it
was before the step. There is no return from it (R239). -/
def State.fail (s : State) (c : Cause) : State := { s with run := .halted, err := errRecord c }

/-- `raise K(info)`: a NEXT state, since the spec describes error entry as a transition (60_exceptions.md R236,
R238; log 4). `s` is the state before the step. -/
def raise (c : Cause) (s : State) : Answer := .next (s.fail c)

/-! ### Bounds-checked memory access (00_scope.md R9, 20_memory.md R50) -/

/-- The address is one of the 256 cells (20_memory.md R50). -/
def addrOk (a : Int) : Bool := decide (0 ≤ a) && decide (a < Config.memSize)

/-- `MemRead(a, 1)`: the address is an exact integer, checked before the read (20_memory.md R50). -/
def memRead (a : Int) (s : State) (k : Byte → Answer) : Answer :=
  if addrOk a then k (s.cell a.toNat) else raise (.outOfBounds .mem a) s

/-- `MemWrite(a, 1, v)` in the state `s1` an instruction has reached; `s` is the state before the step, in which
an error leaves the machine (00_scope.md R9, 60_exceptions.md R236). -/
def memWrite (a : Int) (v : Byte) (s s1 : State) (k : State → Answer) : Answer :=
  if addrOk a then k (s1.store a.toNat v) else raise (.outOfBounds .mem a) s

/-! ### The push of PUSH and CALL (43_stack_call.md R200, R202, R204, R205) -/

/-- Pre-decrement, then write at the new `x[7]`. The value is computed in the state after the decrement, so that
`PUSH R7` stores the decremented value (R200). At `x[7] = 0` it raises OutOfBoundsAccess(Mem, -1) (R204). -/
def pushByte (val : State → Byte) (s : State) (k : State → Answer) : Answer :=
  let sp : Int := s.sp.toNat - 1
  if sp < 0 then raise (.outOfBounds .mem sp) s
  else
    let s1 := s.setSp (mask8 sp)
    memWrite s1.sp.toNat (val s1) s s1 k

end Sys2Proof.Machine
end

