-- ==== Sys2Proof/Machine/Flags.lean ====
section
/-! DEFINITION. The one flag computation of CA-CORE: the comparison state `fl` (10_state.md R29, 41_alu.md R155).
There is no carry, zero, sign or overflow flag. -/

namespace Sys2Proof.Machine

/-- The comparison of two unsigned values (41_alu.md R155). -/
def compareFl (a b : Byte) : Fl :=
  if a.toNat < b.toNat then .less else if a.toNat = b.toNat then .equal else .greater

/-- `fl[2:0]`: bit 2 is L, bit 1 is G, bit 0 is E (10_state.md R29). The bit places are PRESUMED by the spec itself
(D5, G4; log 11); no instruction reads them. -/
def flBits : Fl → BitVec 3
  | .none => 0b000#3
  | .less => 0b100#3
  | .greater => 0b010#3
  | .equal => 0b001#3

end Sys2Proof.Machine
end

