-- ==== Sys2Proof/Machine/Operands.lean ====
section
/-! DEFINITION. The operand forms (30_encoding.md R83): a register operand byte, checked before use, alone or as
the first of two. An immediate is its byte as it stands and needs no operation. -/

namespace Sys2Proof.Machine

/-- `CheckReg(i)`: all eight bits of the byte take part; above 7 it raises OutOfBoundsAccess(Reg, i)
(00_scope.md R9, 10_state.md R23). -/
def checkReg (a : Byte) (s : State) (k : RegIx → Answer) : Answer :=
  if h : a.toNat < 8 then k ⟨a.toNat, h⟩ else raise (.outOfBounds .reg a.toNat) s

/-- `CheckReg(op0); CheckReg(op1)`: the first operand first (41_alu.md R158). -/
def checkRegs (a b : Byte) (s : State) (k : RegIx → RegIx → Answer) : Answer :=
  checkReg a s fun ra => checkReg b s fun rb => k ra rb

end Sys2Proof.Machine
end

