-- ==== Sys2Proof/Machine/Alu.lean ====
section
/-! DEFINITION. The ALU: a pure function of the operation select and two values (41_alu.md R140, R141). Each
operation computes in exact integers and narrows at the end (00_scope.md R8). -/

namespace Sys2Proof.Machine

/-- What the ALU answers (41_alu.md R141). -/
inductive AluOut where
  | result (v : Byte)
  | compare (c : Fl)
  | divisionByZero
  | unsupported
  deriving DecidableEq, Repr

/-! ### The rows of 41_alu.md R141 -/

def aluAdd (a b : Byte) : AluOut := .result (mask8 ((a.toNat : Int) + b.toNat))

def aluSub (a b : Byte) : AluOut := .result (mask8 ((a.toNat : Int) - b.toNat))

def aluMul (a b : Byte) : AluOut := .result (mask8 ((a.toNat : Int) * b.toNat))

def aluDiv (a b : Byte) : AluOut :=
  if b.toNat = 0 then .divisionByZero else .result (mask8 ((a.toNat / b.toNat : Nat) : Int))

def aluMod (a b : Byte) : AluOut :=
  if b.toNat = 0 then .divisionByZero else .result (mask8 ((a.toNat % b.toNat : Nat) : Int))

def aluInc (a _b : Byte) : AluOut := .result (mask8 ((a.toNat : Int) + 1))

def aluDec (a _b : Byte) : AluOut := .result (mask8 ((a.toNat : Int) - 1))

def aluAnd (a b : Byte) : AluOut := .result (a &&& b)

def aluOr (a b : Byte) : AluOut := .result (a ||| b)

def aluXor (a b : Byte) : AluOut := .result (a ^^^ b)

def aluNot (a _b : Byte) : AluOut := .result (mask8 (255 - (a.toNat : Int)))

/-- The shift amount is the whole value of `b`, 0..255 (41_alu.md R153). -/
def aluShl (a b : Byte) : AluOut := .result (mask8 ((a.toNat * 2 ^ b.toNat : Nat) : Int))

/-- Logical: zeros enter at bit 7 (41_alu.md R154). -/
def aluShr (a b : Byte) : AluOut := .result (mask8 ((a.toNat / 2 ^ b.toNat : Nat) : Int))

def aluCmp (a b : Byte) : AluOut := .compare (compareFl a b)

/-- The ALU's own table (41_alu.md R141), keyed by `sel`, the opcode byte. -/
def aluTable : List (Byte × (Byte → Byte → AluOut)) := [
  (opcAdd, aluAdd),
  (opcSub, aluSub),
  (opcMul, aluMul),
  (opcDiv, aluDiv),
  (opcMod, aluMod),
  (opcInc, aluInc),
  (opcDec, aluDec),
  (opcAnd, aluAnd),
  (opcOr, aluOr),
  (opcXor, aluXor),
  (opcNot, aluNot),
  (opcShl, aluShl),
  (opcShr, aluShr),
  (opcCmp, aluCmp)]

/-- The ALU function: any other `sel` is Unsupported (41_alu.md R141, R157). -/
def alu (sel a b : Byte) : AluOut :=
  match aluTable.lookup sel with
  | none => .unsupported
  | some f => f a b

/-- What an ALU-class handler does with the answer (41_alu.md R141): write the first operand register, write
`fl`, or raise; then the engine advances `pc` by one plus the operand count of the opcode (40_engine.md R120). -/
def aluFinish (sel : Byte) (ra : RegIx) (s : State) : AluOut → Answer
  | .result v => .next ((s.setReg ra v).advance (operandCount sel))
  | .compare c => .next ((s.setFl c).advance (operandCount sel))
  | .divisionByZero => raise (.divisionByZero sel) s
  | .unsupported => raise (.unsupportedAlu sel) s

/-- A one-operand ALU-class handler: the ALU ignores its second value (41_alu.md R141). -/
def aluOne (sel a : Byte) (s : State) : Answer :=
  checkReg a s fun ra => aluFinish sel ra s (alu sel (s.reg ra) 0#8)

/-- A two-operand ALU-class handler: both values are read before the result is written (41_alu.md R159). -/
def aluTwo (sel a b : Byte) (s : State) : Answer :=
  checkRegs a b s fun ra rb => aluFinish sel ra s (alu sel (s.reg ra) (s.reg rb))

end Sys2Proof.Machine
end

