-- ==== Sys2Proof/Machine/Arith.lean ====
section
/-! DEFINITION. The meanings of the 14 ALU-class instructions (41_alu.md R142 to R155): each forwards to the ALU
with its own opcode byte as the operation select (40_engine.md R112). -/

namespace Sys2Proof.Machine

/-- ADD (41_alu.md R142). -/
def execAdd (a b : Byte) (s : State) : Answer := aluTwo opcAdd a b s

/-- SUB (41_alu.md R143). -/
def execSub (a b : Byte) (s : State) : Answer := aluTwo opcSub a b s

/-- MUL (41_alu.md R144). -/
def execMul (a b : Byte) (s : State) : Answer := aluTwo opcMul a b s

/-- DIV (41_alu.md R145). -/
def execDiv (a b : Byte) (s : State) : Answer := aluTwo opcDiv a b s

/-- MOD (41_alu.md R146). -/
def execMod (a b : Byte) (s : State) : Answer := aluTwo opcMod a b s

/-- INC (41_alu.md R147). -/
def execInc (a : Byte) (s : State) : Answer := aluOne opcInc a s

/-- DEC (41_alu.md R148). -/
def execDec (a : Byte) (s : State) : Answer := aluOne opcDec a s

/-- AND (41_alu.md R149). -/
def execAnd (a b : Byte) (s : State) : Answer := aluTwo opcAnd a b s

/-- OR (41_alu.md R150). -/
def execOr (a b : Byte) (s : State) : Answer := aluTwo opcOr a b s

/-- XOR (41_alu.md R151). -/
def execXor (a b : Byte) (s : State) : Answer := aluTwo opcXor a b s

/-- NOT, with write-back (41_alu.md R152). -/
def execNot (a : Byte) (s : State) : Answer := aluOne opcNot a s

/-- SHL, with write-back (41_alu.md R153). -/
def execShl (a b : Byte) (s : State) : Answer := aluTwo opcShl a b s

/-- SHR, with write-back (41_alu.md R154). -/
def execShr (a b : Byte) (s : State) : Answer := aluTwo opcShr a b s

/-- CMP (41_alu.md R155). -/
def execCmp (a b : Byte) (s : State) : Answer := aluTwo opcCmp a b s

end Sys2Proof.Machine
end

