-- ==== Sys2Proof/Machine/Data.lean ====
section
/-! DEFINITION. The meanings of LDI, PRN and HLT (42_data_io_halt.md R180 to R182). -/

namespace Sys2Proof.Machine

/-- LDI: the destination register first, the immediate second (42_data_io_halt.md R180; D6, G2; log 1). -/
def execLdi (a imm : Byte) (s : State) : Answer :=
  checkReg a s fun ra => .next ((s.setReg ra imm).advance (operandCount opcLdi))

/-- PRN: append the register's value to the output stream (42_data_io_halt.md R181). -/
def execPrn (a : Byte) (s : State) : Answer :=
  checkReg a s fun ra => .next ((s.emit (s.reg ra)).advance (operandCount opcPrn))

/-- HLT: no control transfer, so `pc` advances by one (42_data_io_halt.md R182, D22). -/
def execHlt (s : State) : Answer := .next (s.halt.advance (operandCount opcHlt))

end Sys2Proof.Machine
end

