-- ==== Sys2Proof/Machine/Stack.lean ====
section
/-! DEFINITION. The meanings of PUSH, POP, CALL and RET (43_stack_call.md R200 to R206). -/

namespace Sys2Proof.Machine

/-- PUSH: the source register is read after `x[7]` was decremented (43_stack_call.md R200). -/
def execPush (a : Byte) (s : State) : Answer :=
  checkReg a s fun ra =>
    pushByte (fun s1 => s1.reg ra) s fun s2 => .next (s2.advance (operandCount opcPush))

/-- POP: the register is written first and the increment of `x[7]` acts on that, so the new stack pointer, which
is checked before both writes, is the popped byte plus one for `POP R7` (43_stack_call.md R201, R204). -/
def execPop (a : Byte) (s : State) : Answer :=
  checkReg a s fun ra =>
    memRead s.sp.toNat s fun v =>
      let sp : Int := (if ra = Config.spIndex then v else s.sp).toNat + 1
      if 255 < sp then raise (.outOfBounds .mem sp) s
      else
        let s1 := s.setReg ra v
        .next ((s1.setSp (mask8 ((s1.sp.toNat : Int) + 1))).advance (operandCount opcPop))

/-- CALL: push the address of the instruction after the CALL, then `pc` is the register's value, read after the
push; the engine does not advance (43_stack_call.md R202). -/
def execCall (a : Byte) (s : State) : Answer :=
  checkReg a s fun ra =>
    let ret : Int := s.pc.toNat + 2
    if 255 < ret then raise (.outOfBounds .mem ret) s
    else pushByte (fun _ => mask8 ret) s fun s2 => .next (s2.jump (zext9 (s2.reg ra)))

/-- RET: pop a byte into `pc`; the engine does not advance (43_stack_call.md R203, R204). -/
def execRet (s : State) : Answer :=
  memRead s.sp.toNat s fun v =>
    let sp : Int := s.sp.toNat + 1
    if 255 < sp then raise (.outOfBounds .mem sp) s
    else .next ((s.setSp (mask8 sp)).jump (zext9 v))

end Sys2Proof.Machine
end

