-- ==== Sys2Proof/Machine/Fetch.lean ====
section
/-! DEFINITION. Parts 1 to 4 of the engine cycle: fetch, operand count, operand fetch, table lookup
(40_engine.md R114 to R117). -/

namespace Sys2Proof.Machine

/-- Part 3: `n` operand bytes from an address up, in ascending order; the first address past memory raises
(40_engine.md R116). -/
def readOperands : Nat → Int → State → (List Byte → Answer) → Answer
  | 0, _, _, k => k []
  | n + 1, a, s, k => memRead a s fun b => readOperands n (a + 1) s fun bs => k (b :: bs)

/-- Parts 1 to 4, then `k` with the instruction: the opcode byte at `pc`; operand count 3 is InvalidOpcode before
any operand fetch (R115); the operand bytes from `pc + 1`; an absent opcode is InvalidOpcode (R117). -/
def fetchDecode (s : State) (k : Instr → Answer) : Answer :=
  memRead s.pc.toNat s fun ir =>
    if operandCount ir = 3 then raise (.invalidOpcode ir) s
    else readOperands (operandCount ir) (s.pc.toNat + 1) s fun ops =>
      match lookupInstr ir ops with
      | none => raise (.invalidOpcode ir) s
      | some i => k i

/-- The bytes of memory from `pc` to address 255, what the engine's fetch reads a head of (20_memory.md R55). -/
def codeBytes (s : State) : List Byte :=
  (List.range (Config.memSize - s.pc.toNat)).map fun j => s.cell (s.pc.toNat + j)

/-- The state with bytes stored at ascending addresses; a byte past address 255 has no cell to stand in. -/
def placeBytes (s : State) : Nat → List Byte → State
  | _, [] => s
  | a, b :: bs => placeBytes (if a < Config.memSize then s.store a b else s) (a + 1) bs

end Sys2Proof.Machine
end

