-- ==== Sys2Proof/Machine/Step.lean ====
section
/-! DEFINITION. One step of the engine (40_engine.md R114, R122, R123) and the host's placement of an instruction
where the next step fetches. -/

namespace Sys2Proof.Machine

/-- One step: the engine cycle when Running; a Halted engine has no step (40_engine.md R123; log 3). -/
def step (s : State) : Host.Outcome State Fault Refusal :=
  match s.run with
  | .running => fetchDecode s fun i => exec i s
  | .halted => .fault (if s.err.kind = .none then .halted else .failed)

/-- `s` with a table word's bytes stored at `pc`, `pc + 1`, `pc + 2`, where the next step fetches; nothing else
changes (log 5). -/
def State.withFetchWord (s : State) (nbits w : Nat) : State :=
  placeBytes s s.pc.toNat (tableBytes nbits w)

end Sys2Proof.Machine
end

