-- ==== Sys2Proof/Machine/HostPort.lean ====
section
/-! DEFINITION. The host interface of 70_reset_and_hazards.md: reset (R270), loading (R272), and the read-only
`status` and `observe` (R274, R276) with their numeric codes. `go` is `Host.Core.run` over `step`; the host has no
other move (R275). -/

namespace Sys2Proof.Machine

/-- `reset`: every element to its reset value, whatever the state was; the only way out of Halted (R270). -/
def hostReset (_ : State) : State := State.reset

/-- `load(a, v)`: a bounds-checked write of one cell; none for an address outside memory, which is the loader's
own error (R272 (b)). -/
def loadCell (a : Nat) (v : Byte) (s : State) : Option State :=
  if a < Config.memSize then some (s.store a v) else none

/-- Values at ascending addresses, one per cell (R272). -/
def loadFrom : Nat → List Byte → State → Option State
  | _, [], s => some s
  | a, v :: vs, s =>
    match loadCell a v s with
    | none => none
    | some s1 => loadFrom (a + 1) vs s1

/-- The state in which the first step runs: reset, then value `k` of the program in cell `LOAD_BASE + k`; none
for a program of more than 256 values, which must not be run (R272). -/
def loadProgram (p : List Byte) : Option State := loadFrom Config.loadBase p State.reset

/-- The numeric code of `err.kind` (60_exceptions.md R230; D7, log 11). -/
def errKindCode : ErrKind → BitVec 3
  | .none => 0#3
  | .invalidOpcode => 1#3
  | .divisionByZero => 2#3
  | .outOfBoundsAccess => 3#3
  | .unsupportedAluOperation => 4#3

/-- The code of `err.space` (10_state.md R30). -/
def spaceCode : Space → BitVec 1
  | .mem => 0#1
  | .reg => 1#1

/-- What the `status` interface carries (R274). -/
structure Status where
  run : Run
  kind : BitVec 3
  space : BitVec 1
  val : Word9
  pc : Word9
  deriving DecidableEq, Repr

/-- The `status` interface (R274). -/
def status (s : State) : Status :=
  { run := s.run, kind := errKindCode s.err.kind, space := spaceCode s.err.space, val := s.err.val, pc := s.pc }

/-- What the `observe` interface carries (R274): the registers, `fl` as bits, the cells from 0 to 255. -/
structure Observation where
  regs : List Byte
  fl : BitVec 3
  cells : List Byte
  deriving DecidableEq, Repr

/-- The `observe` interface: a read-only view (R274, R276). -/
def observe (s : State) : Observation :=
  { regs := s.regs.toList, fl := flBits s.fl, cells := (List.range Config.memSize).map s.cell }

end Sys2Proof.Machine
end

