-- ==== Sys2Proof/Safety.lean ====
section
/-! DEFINITION. What claims are stated in: the two ways a run ends (60_exceptions.md R238), the legal error
records, the invariant of the machine, and which bytes the next step fetches. -/

namespace Sys2Proof.Machine

/-- A clean halt: reached by HLT only (60_exceptions.md R238). -/
def State.cleanHalt (s : State) : Prop := s.run = .halted ∧ s.err.kind = .none

/-- A failure: reached by an error only (60_exceptions.md R238). -/
def State.failure (s : State) : Prop := s.run = .halted ∧ s.err.kind ≠ .none

/-- The opcode byte the next step fetches (40_engine.md R114). -/
def State.opcode (s : State) : Byte := s.cell s.pc.toNat

/-- The records an error can leave, as 60_exceptions.md R230 to R235 list them: no error; an opcode byte outside
the Dispatch Table; DIV's or MOD's opcode byte; a memory address of 256 or -1; a register index of 8 to 255. -/
def Err.legal (e : Err) : Prop :=
  match e.kind with
  | .none => e.space = .mem ∧ e.val = 0#9
  | .invalidOpcode => e.space = .mem ∧ ∃ ir : Byte, (dispatch ir).isNone ∧ e.val = zext9 ir
  | .divisionByZero => e.space = .mem ∧ (e.val = zext9 opcDiv ∨ e.val = zext9 opcMod)
  | .outOfBoundsAccess =>
    match e.space with
    | .mem => e.val = 0x100#9 ∨ e.val = 0x1FF#9
    | .reg => 8 ≤ e.val.toNat ∧ e.val.toNat ≤ 255
  | .unsupportedAluOperation => False

/-- The invariant of the machine: memory in its canonical form (addresses 0..255), `pc` in 0..256
(40_engine.md R121), the error record legal (60_exceptions.md R230 to R235), and no error recorded while Running
(10_state.md R30: `err` is written by the first fault, which halts). -/
structure State.Inv (s : State) : Prop where
  memory : Memory.wf s.mem = true
  counter : s.pc.toNat ≤ 256
  record : s.err.legal
  running : s.run = .running → s.err = noErr

/-- Error entry written out (60_exceptions.md R236): Halted, the record, every other element as it was. -/
def State.afterError (s : State) (kind : ErrKind) (space : Space) (val : Word9) : State :=
  { s with run := .halted, err := ⟨kind, space, val⟩ }

/-- Every general register but the listed ones is the same. -/
def SameRegsBut (l : List RegIx) (s t : State) : Prop := ∀ j : RegIx, j ∉ l → t.reg j = s.reg j

/-- Every cell but the listed ones reads the same. -/
def SameCellsBut (l : List Nat) (s t : State) : Prop := ∀ a : Nat, a ∉ l → t.cell a = s.cell a

/-- Nothing but the listed registers and `pc` may differ. -/
def KeepsAllButRegsAndPc (l : List RegIx) (s t : State) : Prop :=
  SameRegsBut l s t ∧ t.fl = s.fl ∧ t.run = s.run ∧ t.err = s.err ∧ t.out = s.out ∧ SameCellsBut [] s t

/-- Nothing but the listed registers, the listed cells and `pc` may differ. -/
def KeepsAllButRegsCellsAndPc (l : List RegIx) (m : List Nat) (s t : State) : Prop :=
  SameRegsBut l s t ∧ t.fl = s.fl ∧ t.run = s.run ∧ t.err = s.err ∧ t.out = s.out ∧ SameCellsBut m s t

/-- The registers an instruction may write (10_state.md R24): the register its first operand names for LDI, POP
and every ALU instruction but CMP, and `x[7]` for PUSH, POP, CALL and RET. -/
def mayWriteReg : Instr → RegIx → Prop
  | .hlt, _ => False
  | .ret, j => j = 7
  | .push _, j => j = 7
  | .pop a, j => j = 7 ∨ a.toNat = j.val
  | .prn _, _ => False
  | .call _, j => j = 7
  | .inc a, j => a.toNat = j.val
  | .dec a, j => a.toNat = j.val
  | .not a, j => a.toNat = j.val
  | .ldi a _, j => a.toNat = j.val
  | .add a _, j => a.toNat = j.val
  | .sub a _, j => a.toNat = j.val
  | .mul a _, j => a.toNat = j.val
  | .div a _, j => a.toNat = j.val
  | .mod a _, j => a.toNat = j.val
  | .cmp _ _, _ => False
  | .and a _, j => a.toNat = j.val
  | .or a _, j => a.toNat = j.val
  | .xor a _, j => a.toNat = j.val
  | .shl a _, j => a.toNat = j.val
  | .shr a _, j => a.toNat = j.val

end Sys2Proof.Machine
end

