-- ==== Sys2Proof/Certificates/Slice0/Obligations.lean ====
section
/-! DEFINITION. The statements for the provers. Where a docstring says "the spec's own decision D<n>" or "general
knowledge G<n>", the value is a choice that spec/92_eei_decisions.md or 93_implementation_defined.md marks as the
spec's own; the statement has basis 'derived' then. Two things stand in many statements and are named here once: an
opcode byte in an encoding clause is general knowledge G1 (log 1), and the form of the record an error leaves and that
an error leaves all else as it was are 10_state.md R30 and 60_exceptions.md R236, which the spec fixes by its decisions
D7 and D14 (log 10, log 11). -/

namespace Sys2Proof.Claims

open Sys2Proof.Machine

/-- A one-register ALU-class instruction, every form: its encoding (opcode byte: G1, log 1); on a legal operand it
completes, its register gets a result in the relation `rel` to the old value, `pc` advances by 2 and nothing else
changes; on an operand byte above 7 it takes OutOfBoundsAccess(Reg, op0). -/
def OneRegResult (mk : Byte → Instr) (key : Byte) (rel : Byte → Byte → Prop) : Prop :=
  ∀ (a : Byte) (s : State),
    encode (mk a) = [key, a] ∧
    (∀ ra : RegIx, a.toNat = ra.val →
      ∃ t, exec (mk a) s = .next t ∧ rel (s.reg ra) (t.reg ra) ∧ t.pc = s.pc + 2#9 ∧
        KeepsAllButRegsAndPc [ra] s t) ∧
    (7 < a.toNat → exec (mk a) s = .next (s.afterError .outOfBoundsAccess .reg (a.zeroExtend 9)))

/-- A two-register ALU-class instruction that cannot fail on its values, every form, one register named twice
included: its encoding (opcode byte: G1, log 1); on legal operands it completes, the first register gets a result
in the relation `rel` to the two old values, `pc` advances by 3 and nothing else changes; on an operand byte above
7 it takes OutOfBoundsAccess(Reg, byte), the first operand first. -/
def TwoRegResult (mk : Byte → Byte → Instr) (key : Byte) (rel : Byte → Byte → Byte → Prop) : Prop :=
  ∀ (a b : Byte) (s : State),
    encode (mk a b) = [key, a, b] ∧
    (∀ ra rb : RegIx, a.toNat = ra.val → b.toNat = rb.val →
      ∃ t, exec (mk a b) s = .next t ∧ rel (s.reg ra) (s.reg rb) (t.reg ra) ∧ t.pc = s.pc + 3#9 ∧
        KeepsAllButRegsAndPc [ra] s t) ∧
    (7 < a.toNat → exec (mk a b) s = .next (s.afterError .outOfBoundsAccess .reg (a.zeroExtend 9))) ∧
    (a.toNat ≤ 7 → 7 < b.toNat →
      exec (mk a b) s = .next (s.afterError .outOfBoundsAccess .reg (b.zeroExtend 9)))

/-- As `TwoRegResult` for DIV and MOD: the result where the divisor is not 0, DivisionByZero with the opcode byte
where it is. -/
def DivisionResult (mk : Byte → Byte → Instr) (key : Byte) (rel : Byte → Byte → Byte → Prop) : Prop :=
  ∀ (a b : Byte) (s : State),
    encode (mk a b) = [key, a, b] ∧
    (∀ ra rb : RegIx, a.toNat = ra.val → b.toNat = rb.val →
      (s.reg rb ≠ 0#8 →
        ∃ t, exec (mk a b) s = .next t ∧ rel (s.reg ra) (s.reg rb) (t.reg ra) ∧ t.pc = s.pc + 3#9 ∧
          KeepsAllButRegsAndPc [ra] s t) ∧
      (s.reg rb = 0#8 → exec (mk a b) s = .next (s.afterError .divisionByZero .mem (key.zeroExtend 9)))) ∧
    (7 < a.toNat → exec (mk a b) s = .next (s.afterError .outOfBoundsAccess .reg (a.zeroExtend 9))) ∧
    (a.toNat ≤ 7 → 7 < b.toNat →
      exec (mk a b) s = .next (s.afterError .outOfBoundsAccess .reg (b.zeroExtend 9)))

/-- The 21 keys of 40_engine.md R111. -/
def keys : List Byte := [
  0x01#8, 0x11#8, 0x45#8, 0x46#8, 0x47#8, 0x50#8, 0x65#8, 0x66#8, 0x69#8, 0x82#8, 0xA0#8, 0xA1#8, 0xA2#8,
  0xA3#8, 0xA4#8, 0xA7#8, 0xA8#8, 0xAA#8, 0xAB#8, 0xAC#8, 0xAD#8]

/-- The 14 operation selects of 41_alu.md R141. -/
def aluKeys : List Byte := [
  0xA0#8, 0xA1#8, 0xA2#8, 0xA3#8, 0xA4#8, 0x65#8, 0x66#8, 0xA8#8, 0xAA#8, 0xAB#8, 0x69#8, 0xAC#8, 0xAD#8, 0xA7#8]

end Sys2Proof.Claims

open Sys2Proof Sys2Proof.Machine Sys2Proof.Claims

/-! ### Encoding -/

/-- One word of each family, written out from 30_encoding.md R86 (general knowledge G1, log 1), decodes to its
instruction, and bytes after it are left over. -/
def Obligations.OpcodeWordsDecode : Prop :=
  ∀ rest : List Byte,
    decode (0b00000001#8 :: rest) = .ok (.hlt, rest) ∧
    decode (0b01010000#8 :: 0x01#8 :: rest) = .ok (.call 0x01#8, rest) ∧
    decode (0b10000010#8 :: 0x00#8 :: 0x08#8 :: rest) = .ok (.ldi 0x00#8 0x08#8, rest) ∧
    decode (0b01101001#8 :: 0x07#8 :: rest) = .ok (.not 0x07#8, rest) ∧
    decode (0b10100111#8 :: 0x02#8 :: 0x10#8 :: rest) = .ok (.cmp 0x02#8 0x10#8, rest)

/-- The decoder reads an instruction off a byte string exactly where the string begins with that instruction's
encoding, for every instruction, every operand byte and every rest: decode and encode agree both ways. The opcode
values are general knowledge G1 (log 1). -/
def Obligations.DecodeIffEncode : Prop :=
  ∀ (bytes rest : List Byte) (i : Instr), decode bytes = .ok (i, rest) ↔ bytes = encode i ++ rest

/-- Every opcode byte that is not one of the 21 is refused as InvalidOpcode, whatever follows it: with count 3 at
once, else when its operand bytes are there (the spec's own decision D20 for count 3; the values are G1). -/
def Obligations.IllegalOpcodesAreRefused : Prop :=
  ∀ (ir : Byte) (rest : List Byte), ir ∉ keys →
    (ir.extractLsb 7 6 = 3#2 ∨ (ir.extractLsb 7 6).toNat ≤ rest.length) →
    decode (ir :: rest) = .error (.invalidOpcode ir)

/-! ### Reset and loading -/

/-- 10_state.md R36: every cell 0, `x[7] = 0xF4`, Running. -/
def Obligations.ResetStatedValues : Prop :=
  (∀ a : Nat, State.reset.cell a = 0#8) ∧ State.reset.reg 7 = 0xF4#8 ∧ State.reset.run = .running

/-- The reset values that the spec fixes by its own decisions D2, D3, D5, D7 and D21 (10_state.md section 7; log 2):
`x[0]` to `x[6]` are 0, `pc = 0`, `fl = None`, `err = (None, Mem, 0)`, `out` empty. -/
def Obligations.ResetDecidedValues : Prop :=
  (∀ j : RegIx, j ≠ 7 → State.reset.reg j = 0#8) ∧ State.reset.pc = 0#9 ∧ State.reset.fl = .none ∧
    State.reset.err = ⟨.none, .mem, 0#9⟩ ∧ State.reset.out = []

/-- The invariant holds at reset. -/
def Obligations.ResetMeetsTheInvariant : Prop := State.reset.Inv

/-- Loading (70_reset_and_hazards.md section 2; the spec's own decisions D2 and D24): value `k` of a program of at
most 256 values stands in cell `k`, every other cell is 0, the rest of the state is that of reset, and memory is
in its canonical form; a longer program is not loaded. -/
def Obligations.LoadedProgramStandsFromZero : Prop :=
  ∀ p : List Byte,
    (p.length ≤ 256 → ∃ t, loadProgram p = some t ∧
      (∀ (k : Nat) (h : k < p.length), t.cell k = p[k]) ∧ (∀ k : Nat, p.length ≤ k → t.cell k = 0#8) ∧
      t = { State.reset with mem := t.mem } ∧ Memory.wf t.mem = true) ∧
    (256 < p.length → loadProgram p = none)

/-! ### The engine -/

/-- Where the cells from `pc` on begin with the bytes of an instruction, a Running engine's step is `exec` of that
instruction at that state, well formed or not; the update of `pc` is inside `exec`. -/
def Obligations.StepRunsTheDecodedInstruction : Prop :=
  ∀ (s : State) (i : Instr) (rest : List Byte), s.run = .running → decode (codeBytes s) = .ok (i, rest) →
    step s = exec i s

/-- 40_engine.md R123: a Halted engine has no step; the state is final when `err.kind = None`, faulted when not. -/
def Obligations.HaltedHasNoSuccessor : Prop :=
  ∀ s : State, s.run = .halted →
    (s.err.kind = .none → step s = .fault .halted) ∧ (s.err.kind ≠ .none → step s = .fault .failed)

/-- A fetch with `pc` past memory raises OutOfBoundsAccess(Mem, pc) (the spec's own decision D12). -/
def Obligations.OpcodeFetchPastMemory : Prop :=
  ∀ s : State, s.run = .running → 255 < s.pc.toNat → step s = .next (s.afterError .outOfBoundsAccess .mem s.pc)

/-- 40_engine.md R116: operand bytes are read before the table lookup, so whether the opcode is in the table or
not, an operand address past 255 raises OutOfBoundsAccess with the first such address, 256. -/
def Obligations.OperandFetchPastMemory : Prop :=
  ∀ s : State, s.run = .running →
    ((s.pc.toNat = 255 ∧ (s.opcode.extractLsb 7 6 = 1#2 ∨ s.opcode.extractLsb 7 6 = 2#2)) ∨
      (s.pc.toNat = 254 ∧ s.opcode.extractLsb 7 6 = 2#2)) →
    step s = .next (s.afterError .outOfBoundsAccess .mem 0x100#9)

/-- Operand count 3 is InvalidOpcode at once, with no operand fetch, at every address of memory (the spec's own
decision D20). -/
def Obligations.CountThreeIsInvalidAnywhere : Prop :=
  ∀ s : State, s.run = .running → s.pc.toNat ≤ 255 → s.opcode.extractLsb 7 6 = 3#2 →
    step s = .next (s.afterError .invalidOpcode .mem (s.opcode.zeroExtend 9))

/-- 40_engine.md R117: an opcode byte with no entry in the Dispatch Table, its operand bytes in memory, is
InvalidOpcode, ALU-class bit set or not. -/
def Obligations.AbsentOpcodeIsInvalid : Prop :=
  ∀ s : State, s.run = .running → s.opcode ∉ keys → s.opcode.extractLsb 7 6 ≠ 3#2 →
    s.pc.toNat + (s.opcode.extractLsb 7 6).toNat ≤ 255 →
    step s = .next (s.afterError .invalidOpcode .mem (s.opcode.zeroExtend 9))

/-- How a completed instruction leaves `pc` (40_engine.md section 2, the `pc` update): an instruction that completes
(no error recorded before or after) and does not set `pc` itself, HLT included, advances `pc` by one plus its operand
count, without wrap where its bytes lie in memory. Where they do not, which no step reaches, the claim is of the 9-bit
sum, the model's own choice (log 6). CALL and RET leave the value the handler wrote: the register's value read after
the push and the popped byte (43_stack_call.md section 3; the spec's own decisions D18 and D17, log 10). -/
def Obligations.CounterAdvance : Prop :=
  ∀ (i : Instr) (s t : State), exec i s = .next t → s.err.kind = .none → t.err.kind = .none →
    ((∀ a, i ≠ .call a) → i ≠ .ret →
      t.pc = s.pc + BitVec.ofNat 9 (encode i).length ∧
      (s.pc.toNat + (encode i).length ≤ 256 → t.pc.toNat = s.pc.toNat + (encode i).length)) ∧
    (∀ (a : Byte) (ra : RegIx), i = .call a → a.toNat = ra.val → t.pc = (t.reg ra).zeroExtend 9) ∧
    (i = .ret → t.pc = (s.cell s.sp.toNat).zeroExtend 9)

/-- The range of `pc` (40_engine.md section 2, derived there): from a `pc` in memory with no error recorded, a step
leaves `pc` at most 256, and 256 exactly when an instruction that does not set `pc` completes with its last byte
at 255. -/
def Obligations.CounterRange : Prop :=
  ∀ s t : State, s.err.kind = .none → s.pc.toNat ≤ 255 → step s = .next t →
    t.pc.toNat ≤ 256 ∧
    (t.pc.toNat = 256 ↔ t.err.kind = .none ∧ s.opcode ≠ 0x50#8 ∧ s.opcode ≠ 0x11#8 ∧
      s.pc.toNat + 1 + (s.opcode.extractLsb 7 6).toNat = 256)

/-! ### Errors -/

/-- An instruction with a register operand byte above 7 raises OutOfBoundsAccess(Reg, index) with the whole byte as
the index, and writes nothing (10_state.md section 2). That of two such bytes the first is reported, and that this
error comes before every other one of the handler, is the order of 41_alu.md section 6 and 60_exceptions.md section
2, the spec's own decision D8 (log 10). -/
def Obligations.RegisterIndexIsChecked : Prop :=
  ∀ (i : Instr) (s : State) (v : Byte), (regOperands i).find? (fun a => decide (7 < a.toNat)) = some v →
    exec i s = .next (s.afterError .outOfBoundsAccess .reg (v.zeroExtend 9))

/-- 60_exceptions.md R232: DIV and MOD with a zero divisor, both indices legal, record DivisionByZero and the
opcode byte and leave registers unmodified. -/
def Obligations.DivisionByZeroInFull : Prop :=
  ∀ (a b : Byte) (ra rb : RegIx) (s : State), a.toNat = ra.val → b.toNat = rb.val → s.reg rb = 0#8 →
    exec (.div a b) s = .next (s.afterError .divisionByZero .mem 0x0A3#9) ∧
    exec (.mod a b) s = .next (s.afterError .divisionByZero .mem 0x0A4#9)

/-- Errors are precise (60_exceptions.md sections 2 and 3; the spec's own decision D14): a step that records an error
changes nothing but `run` and `err`. -/
def Obligations.ErrorsArePrecise : Prop :=
  ∀ s t : State, s.err.kind = .none → step s = .next t → t.err.kind ≠ .none →
    t.run = .halted ∧ t.regs = s.regs ∧ t.pc = s.pc ∧ t.fl = s.fl ∧ t.mem = s.mem ∧ t.out = s.out

/-- 60_exceptions.md R238: a Running engine with no error recorded always has a step; where the step halts it, either
it was a clean halt, by HLT, with `pc` at the address of the HLT plus one, or a failure, by an error of kind 1, 2
or 3, with `pc` at the failing instruction; and every step that records an error halts it. -/
def Obligations.TwoWaysToStop : Prop :=
  ∀ s : State, s.run = .running → s.err.kind = .none →
    (∃ t, step s = .next t) ∧
    ∀ t, step s = .next t →
      (t.run = .halted →
        (t.err.kind = .none ∧ s.opcode = 0x01#8 ∧ t.pc.toNat = s.pc.toNat + 1) ∨
        ((t.err.kind = .invalidOpcode ∨ t.err.kind = .divisionByZero ∨ t.err.kind = .outOfBoundsAccess) ∧
          t.pc = s.pc)) ∧
      (t.err.kind ≠ .none → t.run = .halted)

/-- No step raises UnsupportedAluOperation (derived in 41_alu.md section 6 and 60_exceptions.md section 1). -/
def Obligations.UnsupportedAluNeverRaised : Prop :=
  ∀ s t : State, s.err.kind ≠ .unsupportedAluOperation → step s = .next t →
    t.err.kind ≠ .unsupportedAluOperation

/-- The ALU answers Unsupported for every operation select outside its table (derived in 41_alu.md section 6). -/
def Obligations.AluRefusesOtherSelects : Prop :=
  ∀ sel a b : Byte, sel ∉ aluKeys → alu sel a b = .unsupported

/-! ### The whole machine -/

/-- Every step keeps the invariant: memory canonical, `pc` at most 256, the error record legal, no error recorded
while Running. -/
def Obligations.StepKeepsTheInvariant : Prop :=
  ∀ s t : State, s.Inv → step s = .next t → t.Inv

/-- Every number of steps keeps the invariant, from every state that meets it. -/
def Obligations.RunKeepsTheInvariant : Prop :=
  ∀ (n : Nat) (s t : State), s.Inv → Host.Core.run Sys2Proof.core n s = .next t → t.Inv

/-- Only CMP changes `fl` (derived in 41_alu.md section 6). -/
def Obligations.OnlyCompareChangesFl : Prop :=
  ∀ s t : State, step s = .next t → t.fl ≠ s.fl → s.opcode = 0xA7#8

/-- Only PUSH and CALL change memory, and only the cell below the stack pointer (the accesses of 20_memory.md
section 1, derived there). -/
def Obligations.OnlyPushAndCallStore : Prop :=
  ∀ s t : State, step s = .next t → t.mem ≠ s.mem →
    (s.opcode = 0x45#8 ∨ s.opcode = 0x50#8) ∧ s.sp ≠ 0#8 ∧ SameCellsBut [s.sp.toNat - 1] s t

/-- The output stream is append-only, one value at a time, and only PRN appends (10_state.md section 4; the spec's own
decision D21). -/
def Obligations.OnlyPrintExtendsOutput : Prop :=
  ∀ s t : State, step s = .next t →
    t.out = s.out ∨ (s.opcode = 0x47#8 ∧ ∃ v, t.out = s.out ++ [v])

/-- What was emitted stays emitted, over any number of steps (10_state.md section 4; D21). -/
def Obligations.OutputPersists : Prop :=
  ∀ (n : Nat) (s t : State), Host.Core.run Sys2Proof.core n s = .next t → s.out <+: t.out

/-- Every instruction writes only the registers that 10_state.md section 2 gives it (derived there), whether it
completes or raises. -/
def Obligations.RegistersWrittenAsListed : Prop :=
  ∀ (i : Instr) (s t : State), exec i s = .next t → ∀ j : RegIx, ¬ mayWriteReg i j → t.reg j = s.reg j

/-! ### Memory -/

/-- 20_memory.md R50: the two operations, bounds-checked on the exact address: in range, a read gives the cell and a
write changes that cell alone; out of range, both raise OutOfBoundsAccess(Mem, a) and change nothing. `s` is the
state before the step, `s1` the state the write is made in. -/
def Obligations.MemoryIsBoundsChecked : Prop :=
  ∀ (a : Int) (v : Byte) (s s1 : State) (k : Byte → Answer) (k1 : State → Answer),
    (0 ≤ a → a ≤ 255 →
      memRead a s k = k (s.cell a.toNat) ∧
      ∃ u, memWrite a v s s1 k1 = k1 u ∧ u.cell a.toNat = v ∧
        KeepsAllButRegsCellsAndPc [] [a.toNat] s1 u ∧ u.pc = s1.pc) ∧
    (a < 0 ∨ 255 < a →
      memRead a s k = .next (s.afterError .outOfBoundsAccess .mem (BitVec.ofInt 9 a)) ∧
      memWrite a v s s1 k1 = .next (s.afterError .outOfBoundsAccess .mem (BitVec.ofInt 9 a)))

/-- A byte PUSH stores at the address the next instruction is fetched from is the opcode byte that is fetched
(20_memory.md section 7, derived there). -/
def Obligations.StoredByteIsFetched : Prop :=
  ∀ (a : Byte) (ra : RegIx) (s : State), a.toNat = ra.val → s.sp.toNat = s.pc.toNat + 3 →
    ∃ t, exec (.push a) s = .next t ∧ t.opcode = t.reg ra

/-! ### LDI, PRN, HLT -/

/-- LDI, every form (42_data_io_halt.md; the operand order is the spec's own decision D6, G2): the immediate as it
stands, `pc` plus 3, nothing else. -/
def Obligations.LoadImmediate : Prop :=
  ∀ (a imm : Byte) (s : State),
    encode (.ldi a imm) = [0x82#8, a, imm] ∧
    (∀ ra : RegIx, a.toNat = ra.val →
      ∃ t, exec (.ldi a imm) s = .next t ∧ t.reg ra = imm ∧ t.pc = s.pc + 3#9 ∧ KeepsAllButRegsAndPc [ra] s t) ∧
    (7 < a.toNat → exec (.ldi a imm) s = .next (s.afterError .outOfBoundsAccess .reg (a.zeroExtend 9)))

/-- PRN, every form (42_data_io_halt.md; the spec's own decision D21): one value appended to `out`, `pc` plus 2,
nothing else; nothing is emitted on an error. -/
def Obligations.PrintRegister : Prop :=
  ∀ (a : Byte) (s : State),
    encode (.prn a) = [0x47#8, a] ∧
    (∀ ra : RegIx, a.toNat = ra.val →
      exec (.prn a) s = .next { s with out := s.out ++ [s.reg ra], pc := s.pc + 2#9 }) ∧
    (7 < a.toNat → exec (.prn a) s = .next (s.afterError .outOfBoundsAccess .reg (a.zeroExtend 9)))

/-- HLT (42_data_io_halt.md; that `pc` advances is the spec's own decision D22): Halted, `pc` plus 1, nothing else. -/
def Obligations.HaltInstruction : Prop :=
  ∀ s : State, encode .hlt = [0x01#8] ∧ exec .hlt s = .next { s with run := .halted, pc := s.pc + 1#9 }

/-! ### Stack and subroutines -/

/-- 43_stack_call.md R200, PUSH, every form, `PUSH R7` included: the stack pointer goes down by one, the cell it then
points at gets the source register's value read after the decrement, `pc` plus 2, nothing else; at `x[7] = 0` it
raises OutOfBoundsAccess(Mem, -1), and on an operand byte above 7 OutOfBoundsAccess(Reg, op0). The opcode byte is G1
(log 1). -/
def Obligations.PushInstruction : Prop :=
  ∀ (a : Byte) (s : State),
    encode (.push a) = [0x45#8, a] ∧
    (∀ ra : RegIx, a.toNat = ra.val →
      (s.sp ≠ 0#8 →
        ∃ t, exec (.push a) s = .next t ∧ t.sp.toNat = s.sp.toNat - 1 ∧ t.pc = s.pc + 2#9 ∧
          ∀ adr : Nat, (adr : Int) = (s.sp.toNat : Int) - 1 →
            t.cell adr = t.reg ra ∧ KeepsAllButRegsCellsAndPc [7] [adr] s t) ∧
      (s.sp = 0#8 → exec (.push a) s = .next (s.afterError .outOfBoundsAccess .mem 0x1FF#9))) ∧
    (7 < a.toNat → exec (.push a) s = .next (s.afterError .outOfBoundsAccess .reg (a.zeroExtend 9)))

/-- 43_stack_call.md R201, POP, every form: into a register other than R7 the register gets the byte at the stack
pointer and the stack pointer goes up by one; `POP R7` leaves the popped byte plus one; `pc` plus 2, memory and all
else unchanged; where the new stack pointer would be 256 it raises OutOfBoundsAccess(Mem, 256), and on an operand
byte above 7 OutOfBoundsAccess(Reg, op0). The opcode byte is G1 (log 1). -/
def Obligations.PopInstruction : Prop :=
  ∀ (a : Byte) (s : State),
    encode (.pop a) = [0x46#8, a] ∧
    (∀ ra : RegIx, a.toNat = ra.val → ra ≠ 7 →
      (s.sp.toNat ≠ 255 →
        ∃ t, exec (.pop a) s = .next t ∧ t.reg ra = s.cell s.sp.toNat ∧ t.sp.toNat = s.sp.toNat + 1 ∧
          t.pc = s.pc + 2#9 ∧ KeepsAllButRegsAndPc [ra, 7] s t) ∧
      (s.sp.toNat = 255 → exec (.pop a) s = .next (s.afterError .outOfBoundsAccess .mem 0x100#9))) ∧
    (a.toNat = 7 →
      ((s.cell s.sp.toNat).toNat ≠ 255 →
        ∃ t, exec (.pop a) s = .next t ∧ t.sp.toNat = (s.cell s.sp.toNat).toNat + 1 ∧
          t.pc = s.pc + 2#9 ∧ KeepsAllButRegsAndPc [7] s t) ∧
      ((s.cell s.sp.toNat).toNat = 255 →
        exec (.pop a) s = .next (s.afterError .outOfBoundsAccess .mem 0x100#9))) ∧
    (7 < a.toNat → exec (.pop a) s = .next (s.afterError .outOfBoundsAccess .reg (a.zeroExtend 9)))

/-- CALL, every form, `CALL R7` included (43_stack_call.md section 3; the spec's own decision D18): the address of the
next instruction is pushed, `pc` becomes the register's value read after the push, nothing else changes; a return
address past 255 raises OutOfBoundsAccess(Mem, pc + 2), before an `x[7]` of 0 raises OutOfBoundsAccess(Mem, -1). -/
def Obligations.CallInstruction : Prop :=
  ∀ (a : Byte) (s : State),
    encode (.call a) = [0x50#8, a] ∧
    (∀ ra : RegIx, a.toNat = ra.val →
      (s.pc.toNat + 2 ≤ 255 → s.sp ≠ 0#8 →
        ∃ t, exec (.call a) s = .next t ∧ t.sp.toNat = s.sp.toNat - 1 ∧ t.pc.toNat = (t.reg ra).toNat ∧
          ∀ adr : Nat, (adr : Int) = (s.sp.toNat : Int) - 1 →
            (t.cell adr).toNat = s.pc.toNat + 2 ∧ KeepsAllButRegsCellsAndPc [7] [adr] s t) ∧
      (s.pc.toNat + 2 ≤ 255 → s.sp = 0#8 →
        exec (.call a) s = .next (s.afterError .outOfBoundsAccess .mem 0x1FF#9)) ∧
      (255 < s.pc.toNat + 2 →
        exec (.call a) s = .next (s.afterError .outOfBoundsAccess .mem (BitVec.ofNat 9 (s.pc.toNat + 2))))) ∧
    (7 < a.toNat → exec (.call a) s = .next (s.afterError .outOfBoundsAccess .reg (a.zeroExtend 9)))

/-- RET (43_stack_call.md section 3; the spec's own decision D17): `pc` becomes the byte at the stack pointer, the
stack pointer goes up by one, nothing else changes; at `x[7] = 255` it raises OutOfBoundsAccess(Mem, 256). -/
def Obligations.ReturnInstruction : Prop :=
  ∀ s : State,
    encode .ret = [0x11#8] ∧
    (s.sp.toNat ≠ 255 →
      ∃ t, exec .ret s = .next t ∧ t.pc.toNat = (s.cell s.sp.toNat).toNat ∧ t.sp.toNat = s.sp.toNat + 1 ∧
        KeepsAllButRegsAndPc [7] s t) ∧
    (s.sp.toNat = 255 → exec .ret s = .next (s.afterError .outOfBoundsAccess .mem 0x100#9))

/-- PUSH then POP moves a value between registers and restores the stack pointer (the source's example S3 of
95_test_vectors.md, for every legal source, and every destination but R7, which `PopInstruction` covers). -/
def Obligations.PushThenPopRoundTrip : Prop :=
  ∀ (a b : Byte) (ra rb : RegIx) (s : State), a.toNat = ra.val → b.toNat = rb.val → rb ≠ 7 → s.sp ≠ 0#8 →
    ∃ u t, exec (.push a) s = .next u ∧ exec (.pop b) u = .next t ∧ t.sp = s.sp ∧
      t.reg rb = (if ra = 7 then s.sp - 1#8 else s.reg ra) ∧ SameRegsBut [rb] s t

/-- CALL then RET comes back to the instruction after the CALL with every register as it was (43_stack_call.md
section 3, derived there; D17, D18). -/
def Obligations.CallThenReturnComesBack : Prop :=
  ∀ (a : Byte) (ra : RegIx) (s : State), a.toNat = ra.val → s.pc.toNat + 2 ≤ 255 → s.sp ≠ 0#8 →
    ∃ u t, exec (.call a) s = .next u ∧ exec .ret u = .next t ∧ t.pc.toNat = s.pc.toNat + 2 ∧
      ∀ j : RegIx, t.reg j = s.reg j

/-! ### ALU-class instructions -/

/-- 41_alu.md R142, ADD: the sum modulo 256. -/
def Obligations.AddWrapsModulo256 : Prop :=
  TwoRegResult .add 0xA0#8 fun x y r => r.toNat = (x.toNat + y.toNat) % 256

/-- SUB (41_alu.md section 2; the spec's own decision D4): the difference modulo 256. -/
def Obligations.SubWrapsModulo256 : Prop :=
  TwoRegResult .sub 0xA1#8 fun x y r => (r.toNat : Int) = ((x.toNat : Int) - y.toNat) % 256

/-- 41_alu.md R144, MUL: the low 8 bits of the exact product. -/
def Obligations.MulKeepsLowByte : Prop :=
  TwoRegResult .mul 0xA2#8 fun x y r => r.toNat = x.toNat * y.toNat % 256

/-- DIV (41_alu.md section 2; the spec's own decision D13): the floor of the quotient. -/
def Obligations.DivIsFloorQuotient : Prop :=
  DivisionResult .div 0xA3#8 fun x y r => r.toNat * y.toNat ≤ x.toNat ∧ x.toNat < (r.toNat + 1) * y.toNat

/-- 41_alu.md R146, MOD: below the divisor, and with DIV's quotient it gives the dividend back. -/
def Obligations.ModIsRemainder : Prop :=
  DivisionResult .mod 0xA4#8 fun x y r =>
    r.toNat < y.toNat ∧ x.toNat = x.toNat / y.toNat * y.toNat + r.toNat

/-- 41_alu.md R147, INC: one more, 255 to 0, on R7 as on any register. -/
def Obligations.IncWraps : Prop :=
  OneRegResult .inc 0x65#8 fun x r => r.toNat = if x.toNat = 255 then 0 else x.toNat + 1

/-- 41_alu.md R148, DEC: one less, 0 to 255, on R7 as on any register. -/
def Obligations.DecWraps : Prop :=
  OneRegResult .dec 0x66#8 fun x r => r.toNat = if x.toNat = 0 then 255 else x.toNat - 1

/-- 41_alu.md R149, AND: bit by bit. -/
def Obligations.AndIsBitwise : Prop :=
  TwoRegResult .and 0xA8#8 fun x y r => ∀ n < 8, r.getLsbD n = (x.getLsbD n && y.getLsbD n)

/-- 41_alu.md R150, OR: bit by bit. -/
def Obligations.OrIsBitwise : Prop :=
  TwoRegResult .or 0xAA#8 fun x y r => ∀ n < 8, r.getLsbD n = (x.getLsbD n || y.getLsbD n)

/-- 41_alu.md R151, XOR: bit by bit. -/
def Obligations.XorIsBitwise : Prop :=
  TwoRegResult .xor 0xAB#8 fun x y r => ∀ n < 8, r.getLsbD n = (x.getLsbD n != y.getLsbD n)

/-- NOT (41_alu.md section 3; write-back is the spec's own decision D16): every bit inverted, 255 minus the value. -/
def Obligations.NotInvertsInPlace : Prop :=
  OneRegResult .not 0x69#8 fun x r => r.toNat = 255 - x.toNat ∧ ∀ n < 8, r.getLsbD n = !(x.getLsbD n)

/-- SHL (41_alu.md section 4; the spec's own decisions D13 and D16): by the whole value of the second register, bits
shifted out lost, 8 or more gives 0. -/
def Obligations.ShlByFullAmount : Prop :=
  TwoRegResult .shl 0xAC#8 fun x y r =>
    r.toNat = x.toNat * 2 ^ y.toNat % 256 ∧ (8 ≤ y.toNat → r = 0#8)

/-- SHR (41_alu.md section 4; the spec's own decisions D13 and D16): logical, by the whole value of the second
register, 8 or more gives 0. -/
def Obligations.ShrIsLogical : Prop :=
  TwoRegResult .shr 0xAD#8 fun x y r =>
    r.toNat = x.toNat / 2 ^ y.toNat ∧ (8 ≤ y.toNat → r = 0#8)

/-- CMP, every form (41_alu.md section 5; `fl` is the spec's own decision D5): `fl` is Less, Equal or Greater by the
unsigned order, `pc` plus 3, nothing else; on an error `fl` is unchanged. -/
def Obligations.CompareSetsFl : Prop :=
  ∀ (a b : Byte) (s : State),
    encode (.cmp a b) = [0xA7#8, a, b] ∧
    (∀ ra rb : RegIx, a.toNat = ra.val → b.toNat = rb.val →
      ∃ t, exec (.cmp a b) s = .next t ∧ t = { s with fl := t.fl, pc := s.pc + 3#9 } ∧
        (t.fl = .less ↔ (s.reg ra).toNat < (s.reg rb).toNat) ∧
        (t.fl = .equal ↔ (s.reg ra).toNat = (s.reg rb).toNat) ∧
        (t.fl = .greater ↔ (s.reg rb).toNat < (s.reg ra).toNat)) ∧
    (7 < a.toNat → exec (.cmp a b) s = .next (s.afterError .outOfBoundsAccess .reg (a.zeroExtend 9))) ∧
    (a.toNat ≤ 7 → 7 < b.toNat →
      exec (.cmp a b) s = .next (s.afterError .outOfBoundsAccess .reg (b.zeroExtend 9)))
end

