-- ==== Sys2Proof/Laws/State.lean ====
section
/-! SUPPORT. What each update of the state does to each field, and to the reads of a register, of the stack pointer
and of a cell: one lemma per field per update, so that no later proof unfolds a record update. -/

namespace Sys2Proof.Machine

variable (s : State)

/-! ### store -/

@[simp] theorem State.store_regs (a : Nat) (v : Byte) : (s.store a v).regs = s.regs := rfl
@[simp] theorem State.store_pc (a : Nat) (v : Byte) : (s.store a v).pc = s.pc := rfl
@[simp] theorem State.store_fl (a : Nat) (v : Byte) : (s.store a v).fl = s.fl := rfl
@[simp] theorem State.store_run (a : Nat) (v : Byte) : (s.store a v).run = s.run := rfl
@[simp] theorem State.store_err (a : Nat) (v : Byte) : (s.store a v).err = s.err := rfl
@[simp] theorem State.store_mem (a : Nat) (v : Byte) : (s.store a v).mem = memPut s.mem a v := rfl
@[simp] theorem State.store_out (a : Nat) (v : Byte) : (s.store a v).out = s.out := rfl
@[simp] theorem State.store_reg (a : Nat) (v : Byte) (j : RegIx) : (s.store a v).reg j = s.reg j := rfl
@[simp] theorem State.store_sp (a : Nat) (v : Byte) : (s.store a v).sp = s.sp := rfl

/-! ### setReg -/

@[simp] theorem State.setReg_regs (i : RegIx) (v : Byte) : (s.setReg i v).regs = s.regs.set i.val v := rfl
@[simp] theorem State.setReg_pc (i : RegIx) (v : Byte) : (s.setReg i v).pc = s.pc := rfl
@[simp] theorem State.setReg_fl (i : RegIx) (v : Byte) : (s.setReg i v).fl = s.fl := rfl
@[simp] theorem State.setReg_run (i : RegIx) (v : Byte) : (s.setReg i v).run = s.run := rfl
@[simp] theorem State.setReg_err (i : RegIx) (v : Byte) : (s.setReg i v).err = s.err := rfl
@[simp] theorem State.setReg_mem (i : RegIx) (v : Byte) : (s.setReg i v).mem = s.mem := rfl
@[simp] theorem State.setReg_out (i : RegIx) (v : Byte) : (s.setReg i v).out = s.out := rfl
@[simp] theorem State.setReg_cell (i : RegIx) (v : Byte) (adr : Nat) : (s.setReg i v).cell adr = s.cell adr := rfl

/-! ### setSp -/

@[simp] theorem State.setSp_regs (v : Byte) : (s.setSp v).regs = s.regs.set 7 v := rfl
@[simp] theorem State.setSp_pc (v : Byte) : (s.setSp v).pc = s.pc := rfl
@[simp] theorem State.setSp_fl (v : Byte) : (s.setSp v).fl = s.fl := rfl
@[simp] theorem State.setSp_run (v : Byte) : (s.setSp v).run = s.run := rfl
@[simp] theorem State.setSp_err (v : Byte) : (s.setSp v).err = s.err := rfl
@[simp] theorem State.setSp_mem (v : Byte) : (s.setSp v).mem = s.mem := rfl
@[simp] theorem State.setSp_out (v : Byte) : (s.setSp v).out = s.out := rfl
@[simp] theorem State.setSp_cell (v : Byte) (adr : Nat) : (s.setSp v).cell adr = s.cell adr := rfl

/-! ### setFl -/

@[simp] theorem State.setFl_regs (c : Fl) : (s.setFl c).regs = s.regs := rfl
@[simp] theorem State.setFl_pc (c : Fl) : (s.setFl c).pc = s.pc := rfl
@[simp] theorem State.setFl_fl (c : Fl) : (s.setFl c).fl = c := rfl
@[simp] theorem State.setFl_run (c : Fl) : (s.setFl c).run = s.run := rfl
@[simp] theorem State.setFl_err (c : Fl) : (s.setFl c).err = s.err := rfl
@[simp] theorem State.setFl_mem (c : Fl) : (s.setFl c).mem = s.mem := rfl
@[simp] theorem State.setFl_out (c : Fl) : (s.setFl c).out = s.out := rfl
@[simp] theorem State.setFl_reg (c : Fl) (j : RegIx) : (s.setFl c).reg j = s.reg j := rfl
@[simp] theorem State.setFl_sp (c : Fl) : (s.setFl c).sp = s.sp := rfl
@[simp] theorem State.setFl_cell (c : Fl) (adr : Nat) : (s.setFl c).cell adr = s.cell adr := rfl

/-! ### emit -/

@[simp] theorem State.emit_regs (v : Byte) : (s.emit v).regs = s.regs := rfl
@[simp] theorem State.emit_pc (v : Byte) : (s.emit v).pc = s.pc := rfl
@[simp] theorem State.emit_fl (v : Byte) : (s.emit v).fl = s.fl := rfl
@[simp] theorem State.emit_run (v : Byte) : (s.emit v).run = s.run := rfl
@[simp] theorem State.emit_err (v : Byte) : (s.emit v).err = s.err := rfl
@[simp] theorem State.emit_mem (v : Byte) : (s.emit v).mem = s.mem := rfl
@[simp] theorem State.emit_out (v : Byte) : (s.emit v).out = s.out ++ [v] := rfl
@[simp] theorem State.emit_reg (v : Byte) (j : RegIx) : (s.emit v).reg j = s.reg j := rfl
@[simp] theorem State.emit_sp (v : Byte) : (s.emit v).sp = s.sp := rfl
@[simp] theorem State.emit_cell (v : Byte) (adr : Nat) : (s.emit v).cell adr = s.cell adr := rfl

/-! ### halt -/

@[simp] theorem State.halt_regs : s.halt.regs = s.regs := rfl
@[simp] theorem State.halt_pc : s.halt.pc = s.pc := rfl
@[simp] theorem State.halt_fl : s.halt.fl = s.fl := rfl
@[simp] theorem State.halt_run : s.halt.run = .halted := rfl
@[simp] theorem State.halt_err : s.halt.err = s.err := rfl
@[simp] theorem State.halt_mem : s.halt.mem = s.mem := rfl
@[simp] theorem State.halt_out : s.halt.out = s.out := rfl
@[simp] theorem State.halt_reg (j : RegIx) : s.halt.reg j = s.reg j := rfl
@[simp] theorem State.halt_sp : s.halt.sp = s.sp := rfl
@[simp] theorem State.halt_cell (adr : Nat) : s.halt.cell adr = s.cell adr := rfl

/-! ### jump -/

@[simp] theorem State.jump_regs (t : Word9) : (s.jump t).regs = s.regs := rfl
@[simp] theorem State.jump_pc (t : Word9) : (s.jump t).pc = t := rfl
@[simp] theorem State.jump_fl (t : Word9) : (s.jump t).fl = s.fl := rfl
@[simp] theorem State.jump_run (t : Word9) : (s.jump t).run = s.run := rfl
@[simp] theorem State.jump_err (t : Word9) : (s.jump t).err = s.err := rfl
@[simp] theorem State.jump_mem (t : Word9) : (s.jump t).mem = s.mem := rfl
@[simp] theorem State.jump_out (t : Word9) : (s.jump t).out = s.out := rfl
@[simp] theorem State.jump_reg (t : Word9) (j : RegIx) : (s.jump t).reg j = s.reg j := rfl
@[simp] theorem State.jump_sp (t : Word9) : (s.jump t).sp = s.sp := rfl
@[simp] theorem State.jump_cell (t : Word9) (adr : Nat) : (s.jump t).cell adr = s.cell adr := rfl

/-! ### advance -/

@[simp] theorem State.advance_regs (n : Nat) : (s.advance n).regs = s.regs := rfl
@[simp] theorem State.advance_pc (n : Nat) : (s.advance n).pc = s.pc + BitVec.ofNat 9 (1 + n) := rfl
@[simp] theorem State.advance_fl (n : Nat) : (s.advance n).fl = s.fl := rfl
@[simp] theorem State.advance_run (n : Nat) : (s.advance n).run = s.run := rfl
@[simp] theorem State.advance_err (n : Nat) : (s.advance n).err = s.err := rfl
@[simp] theorem State.advance_mem (n : Nat) : (s.advance n).mem = s.mem := rfl
@[simp] theorem State.advance_out (n : Nat) : (s.advance n).out = s.out := rfl
@[simp] theorem State.advance_reg (n : Nat) (j : RegIx) : (s.advance n).reg j = s.reg j := rfl
@[simp] theorem State.advance_sp (n : Nat) : (s.advance n).sp = s.sp := rfl
@[simp] theorem State.advance_cell (n : Nat) (adr : Nat) : (s.advance n).cell adr = s.cell adr := rfl

/-! ### fail -/

@[simp] theorem State.fail_regs (c : Cause) : (s.fail c).regs = s.regs := rfl
@[simp] theorem State.fail_pc (c : Cause) : (s.fail c).pc = s.pc := rfl
@[simp] theorem State.fail_fl (c : Cause) : (s.fail c).fl = s.fl := rfl
@[simp] theorem State.fail_run (c : Cause) : (s.fail c).run = .halted := rfl
@[simp] theorem State.fail_err (c : Cause) : (s.fail c).err = errRecord c := rfl
@[simp] theorem State.fail_mem (c : Cause) : (s.fail c).mem = s.mem := rfl
@[simp] theorem State.fail_out (c : Cause) : (s.fail c).out = s.out := rfl
@[simp] theorem State.fail_reg (c : Cause) (j : RegIx) : (s.fail c).reg j = s.reg j := rfl
@[simp] theorem State.fail_sp (c : Cause) : (s.fail c).sp = s.sp := rfl
@[simp] theorem State.fail_cell (c : Cause) (adr : Nat) : (s.fail c).cell adr = s.cell adr := rfl

/-! ### Reads of what an update wrote -/

@[simp] theorem State.setReg_reg (i j : RegIx) (v : Byte) :
    (s.setReg i v).reg j = if j = i then v else s.reg j := by
  simp [State.reg, State.setReg, Vector.getElem_set, Fin.ext_iff, eq_comm]

theorem State.setSp_eq (v : Byte) : s.setSp v = s.setReg 7 v := rfl

theorem State.sp_eq : s.sp = s.reg 7 := rfl

@[simp] theorem State.setSp_reg (j : RegIx) (v : Byte) :
    (s.setSp v).reg j = if j = 7 then v else s.reg j := by
  simp [State.setSp]

@[simp] theorem State.setSp_sp (v : Byte) : (s.setSp v).sp = v := by
  simp [State.sp]

@[simp] theorem State.setReg_sp (i : RegIx) (v : Byte) :
    (s.setReg i v).sp = if 7 = i then v else s.sp := by
  simp [State.sp]

/-- Two states with equal reads of every register have equal register files. -/
theorem State.regs_ext (t : State) (h : ∀ j : RegIx, t.reg j = s.reg j) : t.regs = s.regs := by
  apply Vector.ext
  intro i hi
  exact h ⟨i, hi⟩

end Sys2Proof.Machine
end

