-- ==== Sys2Proof/Laws/Memory.lean ====
section
/-! SUPPORT. Memory as data: reading after writing, and that every operation keeps the canonical form. -/

namespace Sys2Proof.Machine

/-! ### Read after write, for every list, canonical or not -/

theorem memGet_memDrop (m : Memory) (a c : Nat) :
    memGet (memDrop m a) c = if c = a then 0#8 else memGet m c := by
  induction m with
  | nil => simp [memDrop, memGet]
  | cons e rest ih =>
    obtain ⟨b, w⟩ := e
    by_cases hb : b = a
    · subst hb
      by_cases hc : c = b
      · subst hc; simpa [memDrop] using ih
      · have : b ≠ c := fun h => hc h.symm
        simp [memDrop, memGet, ih, hc, this]
    · by_cases hc : b = c
      · subst hc; simp [memDrop, memGet, hb]
      · simp [memDrop, memGet, hb, hc, ih]

theorem memGet_memInsert (m : Memory) (a c : Nat) (v : Byte) :
    c ≠ a → memGet (memInsert m a v) c = memGet m c := by
  intro hc
  have ha : a ≠ c := fun h => hc h.symm
  induction m with
  | nil => simp [memInsert, memGet, ha]
  | cons e rest ih =>
    obtain ⟨b, w⟩ := e
    by_cases hb : a < b
    · simp [memInsert, memGet, hb, ha]
    · simp only [memInsert, hb, if_false, memGet]
      split
      · rfl
      · exact ih

theorem memGet_memInsert_memDrop (m : Memory) (a : Nat) (v : Byte) :
    memGet (memInsert (memDrop m a) a v) a = v := by
  induction m with
  | nil => simp [memDrop, memInsert, memGet]
  | cons e rest ih =>
    obtain ⟨b, w⟩ := e
    by_cases hb : b = a
    · simp [memDrop, hb, ih]
    · by_cases hlt : a < b
      · simp [memDrop, hb, memInsert, hlt, memGet]
      · simp [memDrop, hb, memInsert, hlt, memGet, ih]

/-- Reading after writing: the written cell gives the value, every other cell is as before. -/
theorem memGet_memPut (m : Memory) (a c : Nat) (v : Byte) :
    memGet (memPut m a v) c = if c = a then v else memGet m c := by
  unfold memPut
  by_cases hv : v = 0#8
  · simp [hv, memGet_memDrop]
  · by_cases hc : c = a
    · subst hc; simp [hv, memGet_memInsert_memDrop]
    · simp [hv, hc, memGet_memInsert _ a c v hc, memGet_memDrop]

@[simp] theorem State.store_cell (s : State) (a : Nat) (v : Byte) (c : Nat) :
    (s.store a v).cell c = if c = a then v else s.cell c :=
  memGet_memPut s.mem a c v

/-! ### The canonical form -/

theorem memSorted_mono {lo lo' : Nat} {m : Memory} (h : memSorted lo m = true) (hle : lo' ≤ lo) :
    memSorted lo' m = true := by
  cases m with
  | nil => rfl
  | cons e rest =>
    obtain ⟨b, w⟩ := e
    simp only [memSorted, Bool.and_eq_true, decide_eq_true_eq] at h ⊢
    exact ⟨⟨⟨by omega, h.1.1.2⟩, h.1.2⟩, h.2⟩

theorem memDrop_sorted {lo : Nat} {m : Memory} (a : Nat) (h : memSorted lo m = true) :
    memSorted lo (memDrop m a) = true := by
  induction m generalizing lo with
  | nil => rfl
  | cons e rest ih =>
    obtain ⟨b, w⟩ := e
    simp only [memSorted, Bool.and_eq_true, decide_eq_true_eq] at h
    by_cases hb : b = a
    · simp only [memDrop, hb, if_true]
      exact ih (memSorted_mono h.2 (by omega))
    · simp only [memDrop, hb, if_false, memSorted, Bool.and_eq_true, decide_eq_true_eq]
      exact ⟨h.1, ih h.2⟩

theorem memInsert_memDrop_sorted {lo : Nat} {m : Memory} {a : Nat} {v : Byte} (hlo : lo ≤ a) (ha : a < 256)
    (hv : v ≠ 0#8) (h : memSorted lo m = true) : memSorted lo (memInsert (memDrop m a) a v) = true := by
  induction m generalizing lo with
  | nil => simp [memDrop, memInsert, memSorted, hlo, ha, hv]
  | cons e rest ih =>
    obtain ⟨b, w⟩ := e
    simp only [memSorted, Bool.and_eq_true, decide_eq_true_eq] at h
    by_cases hb : b = a
    · simp only [memDrop, hb, if_true]
      exact ih hlo (memSorted_mono h.2 (by omega))
    · simp only [memDrop, hb, if_false, memInsert]
      split
      · simp only [memSorted, Bool.and_eq_true, decide_eq_true_eq]
        exact ⟨⟨⟨hlo, ha⟩, hv⟩, ⟨⟨by omega, h.1.1.2⟩, h.1.2⟩, memDrop_sorted a h.2⟩
      · simp only [memSorted, Bool.and_eq_true, decide_eq_true_eq]
        exact ⟨h.1, ih (by omega) h.2⟩

/-- Writing a cell of the address space keeps memory in its canonical form. -/
theorem memPut_wf {m : Memory} {a : Nat} (v : Byte) (ha : a < 256) (h : Memory.wf m = true) :
    Memory.wf (memPut m a v) = true := by
  unfold memPut
  split
  · exact memDrop_sorted a h
  · exact memInsert_memDrop_sorted (Nat.zero_le a) ha ‹_› h

theorem store_wf {s : State} {a : Nat} (v : Byte) (ha : a < 256) (h : Memory.wf s.mem = true) :
    Memory.wf (s.store a v).mem = true :=
  memPut_wf v ha h

/-- Placing bytes keeps the canonical form: a byte past address 255 is not stored. -/
theorem placeBytes_wf {s : State} (a : Nat) (bs : List Byte) (h : Memory.wf s.mem = true) :
    Memory.wf (placeBytes s a bs).mem = true := by
  induction bs generalizing a s with
  | nil => exact h
  | cons b bs ih =>
    unfold placeBytes
    apply ih
    split
    · exact store_wf b ‹_› h
    · exact h

theorem reset_memory_wf : Memory.wf State.reset.mem = true := rfl

end Sys2Proof.Machine
end

