-- ==== Sys2Proof/Laws/Ops.lean ====
section
/-! SUPPORT. What each shared operation can answer, said once: narrowing, error entry, bounds-checked access,
operand checks, the push. -/

namespace Sys2Proof.Machine

/-! ### Narrowing -/

theorem mask8_natCast (n : Nat) : mask8 (n : Int) = BitVec.ofNat 8 n := by
  simp [mask8]

theorem mask8_toNat (v : Int) : ((mask8 v).toNat : Int) = v % 256 := by
  simp only [mask8, BitVec.toNat_ofInt]
  omega

theorem mask8_toNat_natCast (n : Nat) : (mask8 (n : Int)).toNat = n % 256 := by
  have := mask8_toNat n
  omega

/-- A value already in 0..255 is kept. -/
theorem mask8_toNat_of_lt {v : Int} (h0 : 0 ≤ v) (h : v < 256) : (mask8 v).toNat = v.toNat := by
  have := mask8_toNat v
  omega

theorem mask8_byte (b : Byte) : mask8 (b.toNat : Int) = b := by
  rw [mask8_natCast, BitVec.ofNat_toNat, BitVec.setWidth_eq]

theorem mask9_toNat (v : Int) : ((mask9 v).toNat : Int) = v % 512 := by
  simp only [mask9, BitVec.toNat_ofInt]
  omega

theorem mask9_byte (b : Byte) : mask9 (b.toNat : Int) = zext9 b := by
  apply BitVec.eq_of_toNat_eq
  have h := mask9_toNat (b.toNat : Int)
  have hb := b.isLt
  simp only [zext9, BitVec.toNat_setWidth]
  omega

theorem mask9_word (w : Word9) : mask9 (w.toNat : Int) = w := by
  apply BitVec.eq_of_toNat_eq
  have h := mask9_toNat (w.toNat : Int)
  have hw := w.isLt
  omega

@[simp] theorem zext9_toNat (b : Byte) : (zext9 b).toNat = b.toNat := by
  have hb := b.isLt
  simp only [zext9, BitVec.toNat_setWidth]
  omega

/-! ### Error entry -/

/-- `raise` always answers a next state: Halted, the record written, all else as before (60_exceptions.md R236). -/
theorem raise_eq (c : Cause) (s : State) : raise c s = .next (s.fail c) := rfl

/-- The state an out-of-bounds register index leaves, with the index as nine bits. -/
theorem fail_reg (a : Byte) (s : State) :
    s.fail (.outOfBounds .reg a.toNat) =
      { s with run := .halted, err := ⟨.outOfBoundsAccess, .reg, a.zeroExtend 9⟩ } := by
  rw [State.fail, errRecord, mask9_byte]
  rfl

/-- Every record an error leaves names an error. -/
theorem errRecord_kind_ne_none (c : Cause) : (errRecord c).kind ≠ .none := by
  cases c <;> simp [errRecord]

/-! ### Bounds-checked access -/

theorem addrOk_iff (a : Int) : addrOk a = true ↔ 0 ≤ a ∧ a < 256 := by
  simp [addrOk]

theorem memRead_ok {a : Nat} (h : a < 256) (s : State) (k : Byte → Answer) :
    memRead (a : Int) s k = k (s.cell a) := by
  have : addrOk (a : Int) = true := (addrOk_iff _).2 ⟨by omega, by omega⟩
  simp [memRead, this]

theorem memRead_byte (b : Byte) (s : State) (k : Byte → Answer) :
    memRead (b.toNat : Int) s k = k (s.cell b.toNat) :=
  memRead_ok b.isLt s k

theorem memRead_out {a : Int} (h : ¬ (0 ≤ a ∧ a < 256)) (s : State) (k : Byte → Answer) :
    memRead a s k = .next (s.fail (.outOfBounds .mem a)) := by
  have : addrOk a = false := by rw [← Bool.not_eq_true, addrOk_iff]; exact h
  simp [memRead, this, raise]

theorem memWrite_ok {a : Nat} (h : a < 256) (v : Byte) (s s1 : State) (k : State → Answer) :
    memWrite (a : Int) v s s1 k = k (s1.store a v) := by
  have : addrOk (a : Int) = true := (addrOk_iff _).2 ⟨by omega, by omega⟩
  simp [memWrite, this]

theorem memWrite_out {a : Int} (h : ¬ (0 ≤ a ∧ a < 256)) (v : Byte) (s s1 : State) (k : State → Answer) :
    memWrite a v s s1 k = .next (s.fail (.outOfBounds .mem a)) := by
  have : addrOk a = false := by rw [← Bool.not_eq_true, addrOk_iff]; exact h
  simp [memWrite, this, raise]

/-! ### Operand checks -/

theorem checkReg_legal {a : Byte} (r : RegIx) (h : a.toNat = r.val) (s : State) (k : RegIx → Answer) :
    checkReg a s k = k r := by
  have hr : a.toNat < 8 := h ▸ r.isLt
  have : (⟨a.toNat, hr⟩ : RegIx) = r := Fin.ext h
  simp [checkReg, hr, this]

theorem checkReg_illegal {a : Byte} (h : 7 < a.toNat) (s : State) (k : RegIx → Answer) :
    checkReg a s k = .next (s.fail (.outOfBounds .reg a.toNat)) := by
  have : ¬ a.toNat < 8 := by omega
  simp [checkReg, this, raise]

/-- `checkReg` goes on with the register the byte names, or raises. -/
theorem checkReg_cases (a : Byte) (s : State) (k : RegIx → Answer) :
    (∃ r : RegIx, a.toNat = r.val ∧ checkReg a s k = k r) ∨
      (7 < a.toNat ∧ checkReg a s k = .next (s.fail (.outOfBounds .reg a.toNat))) := by
  by_cases h : a.toNat < 8
  · exact .inl ⟨⟨a.toNat, h⟩, rfl, checkReg_legal _ rfl s k⟩
  · exact .inr ⟨by omega, checkReg_illegal (by omega) s k⟩

/-! ### The push -/

/-- Where `x[7]` is not 0 the push goes on, one cell lower, with the value written there. -/
theorem pushByte_ok {s : State} (h : s.sp.toNat ≠ 0) (val : State → Byte) (k : State → Answer) :
    pushByte val s k =
      k ((s.setSp (s.sp - 1#8)).store (s.sp.toNat - 1) (val (s.setSp (s.sp - 1#8)))) := by
  have hlt := s.sp.isLt
  have hn : (s.sp - 1#8).toNat = s.sp.toNat - 1 := by
    simp only [BitVec.toNat_sub, BitVec.toNat_ofNat]
    omega
  have hm : mask8 ((s.sp.toNat : Int) - 1) = s.sp - 1#8 := by
    apply BitVec.eq_of_toNat_eq
    rw [mask8_toNat_of_lt (by omega) (by omega), hn]
    omega
  have hneg : ¬ ((s.sp.toNat : Int) - 1 < 0) := by omega
  simp only [pushByte, hneg, if_false, hm, State.setSp_sp]
  rw [memWrite_ok (BitVec.isLt _), hn]

/-- At `x[7] = 0` the push raises OutOfBoundsAccess(Mem, -1) and writes nothing (43_stack_call.md R204 (a)). -/
theorem pushByte_zero {s : State} (h : s.sp.toNat = 0) (val : State → Byte) (k : State → Answer) :
    pushByte val s k = .next (s.fail (.outOfBounds .mem (-1))) := by
  simp [pushByte, h, raise]

end Sys2Proof.Machine
end

