-- ==== Sys2Proof/Laws/Alu.lean ====
section
/-! SUPPORT. The ALU: the answer for each operation select, the value of each result as a number, and that no
ALU-class handler meets Unsupported (41_alu.md R141, R157). -/

namespace Sys2Proof.Machine

/-! ### Each operation select finds its row -/

@[simp] theorem alu_add (a b : Byte) : alu opcAdd a b = aluAdd a b := rfl
@[simp] theorem alu_sub (a b : Byte) : alu opcSub a b = aluSub a b := rfl
@[simp] theorem alu_mul (a b : Byte) : alu opcMul a b = aluMul a b := rfl
@[simp] theorem alu_div (a b : Byte) : alu opcDiv a b = aluDiv a b := rfl
@[simp] theorem alu_mod (a b : Byte) : alu opcMod a b = aluMod a b := rfl
@[simp] theorem alu_inc (a b : Byte) : alu opcInc a b = aluInc a b := rfl
@[simp] theorem alu_dec (a b : Byte) : alu opcDec a b = aluDec a b := rfl
@[simp] theorem alu_and (a b : Byte) : alu opcAnd a b = aluAnd a b := rfl
@[simp] theorem alu_or (a b : Byte) : alu opcOr a b = aluOr a b := rfl
@[simp] theorem alu_xor (a b : Byte) : alu opcXor a b = aluXor a b := rfl
@[simp] theorem alu_not (a b : Byte) : alu opcNot a b = aluNot a b := rfl
@[simp] theorem alu_shl (a b : Byte) : alu opcShl a b = aluShl a b := rfl
@[simp] theorem alu_shr (a b : Byte) : alu opcShr a b = aluShr a b := rfl
@[simp] theorem alu_cmp (a b : Byte) : alu opcCmp a b = aluCmp a b := rfl

/-! ### The handlers -/

theorem aluOne_legal {sel a : Byte} (r : RegIx) (h : a.toNat = r.val) (s : State) :
    aluOne sel a s = aluFinish sel r s (alu sel (s.reg r) 0#8) :=
  checkReg_legal r h s _

theorem aluOne_illegal {sel a : Byte} (h : 7 < a.toNat) (s : State) :
    aluOne sel a s = .next (s.fail (.outOfBounds .reg a.toNat)) :=
  checkReg_illegal h s _

theorem aluTwo_legal {sel a b : Byte} (ra rb : RegIx) (ha : a.toNat = ra.val) (hb : b.toNat = rb.val) (s : State) :
    aluTwo sel a b s = aluFinish sel ra s (alu sel (s.reg ra) (s.reg rb)) := by
  simp only [aluTwo, checkRegs, checkReg_legal ra ha, checkReg_legal rb hb]

theorem aluTwo_illegal_first {sel a b : Byte} (h : 7 < a.toNat) (s : State) :
    aluTwo sel a b s = .next (s.fail (.outOfBounds .reg a.toNat)) := by
  simp only [aluTwo, checkRegs, checkReg_illegal h]

theorem aluTwo_illegal_second {sel a b : Byte} (ha : a.toNat ≤ 7) (h : 7 < b.toNat) (s : State) :
    aluTwo sel a b s = .next (s.fail (.outOfBounds .reg b.toNat)) := by
  simp only [aluTwo, checkRegs, checkReg_legal (a := a) ⟨a.toNat, by omega⟩ rfl, checkReg_illegal h]

/-- What an ALU-class handler can answer: a register written, `fl` written, or an error. -/
theorem aluFinish_cases (sel : Byte) (r : RegIx) (s : State) (o : AluOut) :
    (∃ v, o = .result v ∧ aluFinish sel r s o = .next ((s.setReg r v).advance (operandCount sel))) ∨
      (∃ c, o = .compare c ∧ aluFinish sel r s o = .next ((s.setFl c).advance (operandCount sel))) ∨
      (o = .divisionByZero ∧ aluFinish sel r s o = .next (s.fail (.divisionByZero sel))) ∨
      (o = .unsupported ∧ aluFinish sel r s o = .next (s.fail (.unsupportedAlu sel))) := by
  cases o with
  | result v => exact .inl ⟨v, rfl, rfl⟩
  | compare c => exact .inr (.inl ⟨c, rfl, rfl⟩)
  | divisionByZero => exact .inr (.inr (.inl ⟨rfl, rfl⟩))
  | unsupported => exact .inr (.inr (.inr ⟨rfl, rfl⟩))

/-! ### The narrowed results as bit-vector arithmetic -/

theorem mask8_add (a b : Byte) : mask8 ((a.toNat : Int) + b.toNat) = a + b := by
  apply BitVec.eq_of_toNat_eq
  have h := mask8_toNat ((a.toNat : Int) + b.toNat)
  simp only [BitVec.toNat_add]
  omega

theorem mask8_sub (a b : Byte) : mask8 ((a.toNat : Int) - b.toNat) = a - b := by
  apply BitVec.eq_of_toNat_eq
  have h := mask8_toNat ((a.toNat : Int) - b.toNat)
  have ha := a.isLt
  have hb := b.isLt
  simp only [BitVec.toNat_sub]
  omega

theorem mask8_mul (a b : Byte) : mask8 ((a.toNat : Int) * b.toNat) = a * b := by
  apply BitVec.eq_of_toNat_eq
  have h := mask8_toNat_natCast (a.toNat * b.toNat)
  simp only [BitVec.toNat_mul]
  push_cast at h
  exact h

theorem mask8_complement (a : Byte) : mask8 (255 - (a.toNat : Int)) = ~~~a := by
  apply BitVec.eq_of_toNat_eq
  have h := mask8_toNat (255 - (a.toNat : Int))
  have ha := a.isLt
  simp only [BitVec.toNat_not]
  omega

end Sys2Proof.Machine
end

