-- ==== Sys2Proof/Laws/Decode.lean ====
section
/-! SUPPORT. The Dispatch Table and the opcode map: arities agree with the keys (40_engine.md R112), and the
lookup is exactly the inverse of the encoder. -/

namespace Sys2Proof

theorem operandCount_lt (ir : Byte) : operandCount ir < 4 := by
  have := ir.isLt
  unfold operandCount
  omega

/-- The operand count of an opcode is the number of its operand bytes (30_encoding.md R85 (a)). -/
theorem operandCount_opcodeOf (i : Instr) : operandCount (opcodeOf i) = (operandsOf i).length := by
  cases i <;> simp [opcodeOf, operandsOf, operandCount]

theorem operandCount_opcodeOf_ne_three (i : Instr) : operandCount (opcodeOf i) ≠ 3 := by
  cases i <;> simp [opcodeOf, operandCount]

/-- Only CALL and RET set `pc` themselves (40_engine.md R111). -/
theorem setsPc_iff (i : Instr) : setsPc i = true ↔ opcodeOf i = opcCall ∨ opcodeOf i = opcRet := by
  cases i <;>
    simp [setsPc, opcodeOf, opcHlt, opcRet, opcPush, opcPop, opcPrn, opcCall, opcInc, opcDec, opcNot, opcLdi, opcAdd,
      opcSub, opcMul, opcDiv, opcMod, opcCmp, opcAnd, opcOr, opcXor, opcShl, opcShr]

theorem encode_length (i : Instr) : (encode i).length = 1 + operandCount (opcodeOf i) := by
  rw [operandCount_opcodeOf, encode, List.length_cons, Nat.add_comm]

/-- An entry the table answers is one of its rows. -/
theorem mem_of_lookup {α : Type} (t : List (Byte × α)) {k : Byte} {v : α} (h : t.lookup k = some v) :
    (k, v) ∈ t := by
  induction t with
  | nil => simp [List.lookup] at h
  | cons e rest ih =>
    obtain ⟨k', v'⟩ := e
    by_cases hk : k = k'
    · subst hk
      simp [List.lookup] at h
      simp [h]
    · have : (k == k') = false := by simpa using hk
      simp only [List.lookup, this] at h
      exact List.mem_cons_of_mem _ (ih h)

/-- No row has a key: the table answers none. -/
theorem lookup_none {α : Type} (t : List (Byte × α)) {k : Byte} (h : k ∉ t.map Prod.fst) : t.lookup k = none := by
  cases hl : t.lookup k with
  | none => rfl
  | some v => exact absurd (List.mem_map_of_mem (f := Prod.fst) (mem_of_lookup t hl)) h

/-- 40_engine.md R112: an entry's arity equals the count encoded in its key. -/
theorem dispatch_arity {ir : Byte} {h : Handler} (hd : dispatch ir = some h) : handlerArity h = operandCount ir := by
  have hm := mem_of_lookup _ hd
  simp only [dispatchTable, List.mem_cons, Prod.mk.injEq, List.not_mem_nil, or_false] at hm
  rcases hm with hm | hm | hm | hm | hm | hm | hm | hm | hm | hm | hm | hm | hm | hm | hm | hm | hm | hm | hm | hm | hm <;>
    (obtain ⟨rfl, rfl⟩ := hm; rfl)

/-- 40_engine.md R113: the keys of the table are the opcodes of the 21 instructions and nothing else. -/
theorem dispatch_isSome_iff (ir : Byte) : (dispatch ir).isSome ↔ ir ∈ dispatchTable.map Prod.fst := by
  constructor
  · intro h
    obtain ⟨v, hv⟩ := Option.isSome_iff_exists.1 h
    exact List.mem_map_of_mem (f := Prod.fst) (mem_of_lookup _ hv)
  · intro h
    simp only [dispatchTable, List.map_cons, List.map_nil, List.mem_cons, List.not_mem_nil, or_false] at h
    rcases h with h | h | h | h | h | h | h | h | h | h | h | h | h | h | h | h | h | h | h | h | h <;>
      (subst h; rfl)

theorem lookupInstr_encode (i : Instr) : lookupInstr (opcodeOf i) (operandsOf i) = some i := by
  cases i <;> rfl

theorem applyHandler_length {h : Handler} {ops : List Byte} {i : Instr} (ha : applyHandler h ops = some i) :
    ops.length = handlerArity h := by
  cases h <;> rcases ops with _ | ⟨a, _ | ⟨b, _ | ⟨c, ops⟩⟩⟩ <;> simp_all [applyHandler, handlerArity]

/-- The lookup answers an instruction exactly for that instruction's opcode and operand bytes. -/
theorem lookupInstr_eq_some {ir : Byte} {ops : List Byte} {i : Instr} (h : lookupInstr ir ops = some i) :
    ir = opcodeOf i ∧ ops = operandsOf i := by
  unfold lookupInstr at h
  cases hd : dispatch ir with
  | none => simp [hd] at h
  | some hh =>
    simp only [hd] at h
    have hm := mem_of_lookup _ hd
    simp only [dispatchTable, List.mem_cons, Prod.mk.injEq, List.not_mem_nil, or_false] at hm
    rcases hm with hm | hm | hm | hm | hm | hm | hm | hm | hm | hm | hm | hm | hm | hm | hm | hm | hm | hm | hm | hm | hm <;>
      obtain ⟨rfl, rfl⟩ := hm <;>
      rcases ops with _ | ⟨a, _ | ⟨b, _ | ⟨c, ops⟩⟩⟩ <;>
      simp only [applyHandler, Option.some.injEq, reduceCtorEq] at h <;>
      subst h <;> exact ⟨rfl, rfl⟩

/-- The decoder on a string that has an opcode byte. -/
theorem decode_cons (ir : Byte) (rest : List Byte) :
    decode (ir :: rest) =
      if operandCount ir = 3 then .error (.invalidOpcode ir)
      else if rest.length < operandCount ir then .error (.missingByte (rest.length + 1))
      else
        match lookupInstr ir (rest.take (operandCount ir)) with
        | none => .error (.invalidOpcode ir)
        | some i => .ok (i, rest.drop (operandCount ir)) := rfl

/-- With the operand bytes its count asks for, the lookup fails exactly on an absent opcode. -/
theorem lookupInstr_eq_none {ir : Byte} {ops : List Byte} (hl : ops.length = operandCount ir) :
    lookupInstr ir ops = none ↔ dispatch ir = none := by
  unfold lookupInstr
  cases hd : dispatch ir with
  | none => simp
  | some h =>
    have har := dispatch_arity hd
    rw [← hl] at har
    cases h <;> rcases ops with _ | ⟨a, _ | ⟨b, _ | ⟨c, ops⟩⟩⟩ <;>
      simp [applyHandler, handlerArity] at har ⊢

end Sys2Proof
end

