-- ==== Sys2Proof/Laws/Exec.lean ====
section
/-! SUPPORT. What `exec` can answer, said once: it raises, with a legal record, or it completes, and then each
element of the state changes only as the spec's tables allow. -/

namespace Sys2Proof.Machine

/-! ### The arm of each instruction -/

theorem exec_add (a b : Byte) (s : State) : exec (.add a b) s = aluTwo opcAdd a b s := rfl
theorem exec_sub (a b : Byte) (s : State) : exec (.sub a b) s = aluTwo opcSub a b s := rfl
theorem exec_mul (a b : Byte) (s : State) : exec (.mul a b) s = aluTwo opcMul a b s := rfl
theorem exec_div (a b : Byte) (s : State) : exec (.div a b) s = aluTwo opcDiv a b s := rfl
theorem exec_mod (a b : Byte) (s : State) : exec (.mod a b) s = aluTwo opcMod a b s := rfl
theorem exec_cmp (a b : Byte) (s : State) : exec (.cmp a b) s = aluTwo opcCmp a b s := rfl
theorem exec_and (a b : Byte) (s : State) : exec (.and a b) s = aluTwo opcAnd a b s := rfl
theorem exec_or (a b : Byte) (s : State) : exec (.or a b) s = aluTwo opcOr a b s := rfl
theorem exec_xor (a b : Byte) (s : State) : exec (.xor a b) s = aluTwo opcXor a b s := rfl
theorem exec_shl (a b : Byte) (s : State) : exec (.shl a b) s = aluTwo opcShl a b s := rfl
theorem exec_shr (a b : Byte) (s : State) : exec (.shr a b) s = aluTwo opcShr a b s := rfl
theorem exec_inc (a : Byte) (s : State) : exec (.inc a) s = aluOne opcInc a s := rfl
theorem exec_dec (a : Byte) (s : State) : exec (.dec a) s = aluOne opcDec a s := rfl
theorem exec_not (a : Byte) (s : State) : exec (.not a) s = aluOne opcNot a s := rfl
theorem exec_push (a : Byte) (s : State) : exec (.push a) s = execPush a s := rfl
theorem exec_pop (a : Byte) (s : State) : exec (.pop a) s = execPop a s := rfl
theorem exec_prn (a : Byte) (s : State) : exec (.prn a) s = execPrn a s := rfl
theorem exec_call (a : Byte) (s : State) : exec (.call a) s = execCall a s := rfl
theorem exec_ldi (a imm : Byte) (s : State) : exec (.ldi a imm) s = execLdi a imm s := rfl
theorem exec_ret (s : State) : exec .ret s = execRet s := rfl
theorem exec_hlt (s : State) : exec .hlt s = execHlt s := rfl

/-! ### What `exec` can answer -/

/-- A completed instruction (60_exceptions.md R234 met nothing): what it may have changed. -/
structure Completed (i : Instr) (s t : State) : Prop where
  err : t.err = s.err
  run : t.run = if i = .hlt then .halted else s.run
  pcAdvance : setsPc i = false → t.pc = s.pc + BitVec.ofNat 9 (1 + operandCount (opcodeOf i))
  pcJump : setsPc i = true → t.pc.toNat ≤ 255
  fl : t.fl = s.fl ∨ opcodeOf i = opcCmp
  out : t.out = s.out ∨ (opcodeOf i = opcPrn ∧ ∃ v, t.out = s.out ++ [v])
  mem : t.mem = s.mem ∨
    ((opcodeOf i = opcPush ∨ opcodeOf i = opcCall) ∧ s.sp.toNat ≠ 0 ∧ ∃ v, t.mem = memPut s.mem (s.sp.toNat - 1) v)

/-- The causes the handler of an instruction can raise. -/
def HandlerCause (i : Instr) (s : State) (c : Cause) : Prop :=
  (∃ a ∈ regOperands i, 7 < a.toNat ∧ c = .outOfBounds .reg a.toNat) ∨
    ((opcodeOf i = opcDiv ∨ opcodeOf i = opcMod) ∧ c = .divisionByZero (opcodeOf i)) ∨
    (opcodeOf i = opcCall ∧ 254 ≤ s.pc.toNat ∧ c = .outOfBounds .mem (s.pc.toNat + 2)) ∨
    ((opcodeOf i = opcPush ∨ opcodeOf i = opcCall) ∧ c = .outOfBounds .mem (-1)) ∨
    ((opcodeOf i = opcPop ∨ opcodeOf i = opcRet) ∧ c = .outOfBounds .mem 256)

/-- Every answer of `exec` is a next state: an error entry or a completion. -/
def Answers (i : Instr) (s : State) (o : Answer) : Prop :=
  (∃ c, HandlerCause i s c ∧ o = .next (s.fail c)) ∨ ∃ t, Completed i s t ∧ o = .next t

theorem answers_aluOne (i : Instr) (a : Byte) (s : State) (v : Byte → Byte)
    (hops : regOperands i = [a]) (hhlt : i ≠ .hlt) (hset : setsPc i = false)
    (hv : ∀ x, alu (opcodeOf i) x 0#8 = .result (v x)) : Answers i s (aluOne (opcodeOf i) a s) := by
  by_cases ha : 7 < a.toNat
  · exact .inl ⟨_, .inl ⟨a, by simp [hops], ha, rfl⟩, aluOne_illegal ha s⟩
  · refine .inr ⟨_, ?_, by rw [aluOne_legal ⟨a.toNat, by omega⟩ rfl, hv]; rfl⟩
    exact { err := rfl, run := by simp [hhlt], pcAdvance := fun _ => rfl, pcJump := by simp [hset],
            fl := .inl rfl, out := .inl rfl, mem := .inl rfl }

theorem answers_aluTwo (i : Instr) (a b : Byte) (s : State)
    (hops : regOperands i = [a, b]) (hhlt : i ≠ .hlt) (hset : setsPc i = false)
    (hv : ∀ x y, (∃ v, alu (opcodeOf i) x y = .result v) ∨
      ((opcodeOf i = opcDiv ∨ opcodeOf i = opcMod) ∧ alu (opcodeOf i) x y = .divisionByZero) ∨
      (opcodeOf i = opcCmp ∧ ∃ c, alu (opcodeOf i) x y = .compare c)) :
    Answers i s (aluTwo (opcodeOf i) a b s) := by
  by_cases ha : 7 < a.toNat
  · exact .inl ⟨_, .inl ⟨a, by simp [hops], ha, rfl⟩, aluTwo_illegal_first ha s⟩
  by_cases hb : 7 < b.toNat
  · exact .inl ⟨_, .inl ⟨b, by simp [hops], hb, rfl⟩, aluTwo_illegal_second (by omega) hb s⟩
  have heq := aluTwo_legal (sel := opcodeOf i) ⟨a.toNat, by omega⟩ ⟨b.toNat, by omega⟩ rfl rfl s
  rcases hv (s.reg ⟨a.toNat, by omega⟩) (s.reg ⟨b.toNat, by omega⟩) with ⟨v, h⟩ | ⟨hd, h⟩ | ⟨hc, c, h⟩
  · refine .inr ⟨_, ?_, by rw [heq, h]; rfl⟩
    exact { err := rfl, run := by simp [hhlt], pcAdvance := fun _ => rfl, pcJump := by simp [hset],
            fl := .inl rfl, out := .inl rfl, mem := .inl rfl }
  · exact .inl ⟨_, .inr (.inl ⟨hd, rfl⟩), by rw [heq, h]; rfl⟩
  · refine .inr ⟨_, ?_, by rw [heq, h]; rfl⟩
    exact { err := rfl, run := by simp [hhlt], pcAdvance := fun _ => rfl, pcJump := by simp [hset],
            fl := .inr hc, out := .inl rfl, mem := .inl rfl }

theorem answers_ldi (a imm : Byte) (s : State) : Answers (.ldi a imm) s (execLdi a imm s) := by
  rcases checkReg_cases a s (fun ra => .next ((s.setReg ra imm).advance (operandCount opcLdi)))
    with ⟨r, -, h⟩ | ⟨ha, h⟩
  · refine .inr ⟨_, ?_, h⟩
    exact { err := rfl, run := rfl, pcAdvance := fun _ => rfl, pcJump := by simp [setsPc],
            fl := .inl rfl, out := .inl rfl, mem := .inl rfl }
  · exact .inl ⟨_, .inl ⟨a, by simp [regOperands], ha, rfl⟩, h⟩

theorem answers_prn (a : Byte) (s : State) : Answers (.prn a) s (execPrn a s) := by
  rcases checkReg_cases a s (fun ra => .next ((s.emit (s.reg ra)).advance (operandCount opcPrn)))
    with ⟨r, -, h⟩ | ⟨ha, h⟩
  · refine .inr ⟨_, ?_, h⟩
    exact { err := rfl, run := rfl, pcAdvance := fun _ => rfl, pcJump := by simp [setsPc],
            fl := .inl rfl, out := .inr ⟨rfl, s.reg r, rfl⟩, mem := .inl rfl }
  · exact .inl ⟨_, .inl ⟨a, by simp [regOperands], ha, rfl⟩, h⟩

theorem answers_hlt (s : State) : Answers .hlt s (execHlt s) :=
  .inr ⟨s.halt.advance (operandCount opcHlt),
    { err := rfl, run := rfl, pcAdvance := fun _ => rfl, pcJump := by simp [setsPc],
      fl := .inl rfl, out := .inl rfl, mem := .inl rfl }, rfl⟩

/-- PUSH on a legal operand with room below. -/
theorem execPush_ok {a : Byte} (r : RegIx) (ha : a.toNat = r.val) {s : State} (h : s.sp.toNat ≠ 0) :
    execPush a s = .next
      (((s.setSp (s.sp - 1#8)).store (s.sp.toNat - 1) ((s.setSp (s.sp - 1#8)).reg r)).advance 1) := by
  rw [execPush, checkReg_legal r ha, pushByte_ok h]
  rfl

theorem execPush_zero {a : Byte} (r : RegIx) (ha : a.toNat = r.val) {s : State} (h : s.sp.toNat = 0) :
    execPush a s = .next (s.fail (.outOfBounds .mem (-1))) := by
  rw [execPush, checkReg_legal r ha, pushByte_zero h]

theorem answers_push (a : Byte) (s : State) : Answers (.push a) s (execPush a s) := by
  by_cases ha : 7 < a.toNat
  · exact .inl ⟨_, .inl ⟨a, by simp [regOperands], ha, rfl⟩, checkReg_illegal ha s _⟩
  by_cases h : s.sp.toNat = 0
  · exact .inl ⟨_, .inr (.inr (.inr (.inl ⟨.inl rfl, rfl⟩))), execPush_zero ⟨a.toNat, by omega⟩ rfl h⟩
  · refine .inr ⟨_, ?_, execPush_ok ⟨a.toNat, by omega⟩ rfl h⟩
    exact { err := rfl, run := rfl, pcAdvance := fun _ => by simp [opcodeOf, operandCount], pcJump := by simp [setsPc],
            fl := .inl rfl, out := .inl rfl, mem := .inr ⟨.inl rfl, h, _, rfl⟩ }

/-- POP on a legal operand: the popped byte, then the check of the new stack pointer, then the two writes. -/
theorem execPop_legal {a : Byte} (r : RegIx) (ha : a.toNat = r.val) (s : State) :
    execPop a s =
      if (if r = 7 then s.cell s.sp.toNat else s.sp).toNat = 255 then .next (s.fail (.outOfBounds .mem 256))
      else .next (((s.setReg r (s.cell s.sp.toNat)).setSp
        ((if r = 7 then s.cell s.sp.toNat else s.sp) + 1#8)).advance 1) := by
  rw [execPop, checkReg_legal r ha, memRead_byte]
  have hsp : (s.setReg r (s.cell s.sp.toNat)).sp = if r = 7 then s.cell s.sp.toNat else s.sp := by
    simp [eq_comm]
  simp only [hsp, Config.spIndex]
  generalize (if r = 7 then s.cell s.sp.toNat else s.sp) = x
  have hx := x.isLt
  by_cases h : x.toNat = 255
  · simp [h, raise]
  · have hlt : ¬ (255 < (x.toNat : Int) + 1) := by omega
    have hm : mask8 ((x.toNat : Int) + 1) = x + 1#8 := by
      apply BitVec.eq_of_toNat_eq
      rw [mask8_toNat_of_lt (by omega) (by omega)]
      simp only [BitVec.toNat_add, BitVec.toNat_ofNat]
      omega
    simp only [hlt, h, if_false, hm]
    rfl

theorem answers_pop (a : Byte) (s : State) : Answers (.pop a) s (execPop a s) := by
  by_cases ha : 7 < a.toNat
  · exact .inl ⟨_, .inl ⟨a, by simp [regOperands], ha, rfl⟩, checkReg_illegal ha s _⟩
  have heq := execPop_legal (a := a) ⟨a.toNat, by omega⟩ rfl s
  by_cases h : (if (⟨a.toNat, by omega⟩ : RegIx) = 7 then s.cell s.sp.toNat else s.sp).toNat = 255
  · rw [if_pos h] at heq
    exact .inl ⟨_, .inr (.inr (.inr (.inr ⟨.inl rfl, rfl⟩))), heq⟩
  · rw [if_neg h] at heq
    refine .inr ⟨_, ?_, heq⟩
    exact { err := rfl, run := rfl, pcAdvance := fun _ => by simp [opcodeOf, operandCount], pcJump := by simp [setsPc],
            fl := .inl rfl, out := .inl rfl, mem := .inl rfl }

/-- RET: the check of the new stack pointer, then the two writes. -/
theorem execRet_eq (s : State) :
    execRet s =
      if s.sp.toNat = 255 then .next (s.fail (.outOfBounds .mem 256))
      else .next ((s.setSp (s.sp + 1#8)).jump (zext9 (s.cell s.sp.toNat))) := by
  rw [execRet, memRead_byte]
  have hx := s.sp.isLt
  by_cases h : s.sp.toNat = 255
  · simp [h, raise]
  · have hlt : ¬ (255 < (s.sp.toNat : Int) + 1) := by omega
    have hm : mask8 ((s.sp.toNat : Int) + 1) = s.sp + 1#8 := by
      apply BitVec.eq_of_toNat_eq
      rw [mask8_toNat_of_lt (by omega) (by omega)]
      simp only [BitVec.toNat_add, BitVec.toNat_ofNat]
      omega
    simp only [hlt, h, if_false, hm]

theorem zext9_le (b : Byte) : (zext9 b).toNat ≤ 255 := by
  have := b.isLt
  rw [zext9_toNat]
  omega

theorem answers_ret (s : State) : Answers .ret s (execRet s) := by
  have heq := execRet_eq s
  split at heq
  · exact .inl ⟨_, .inr (.inr (.inr (.inr ⟨.inr rfl, rfl⟩))), heq⟩
  · refine .inr ⟨_, ?_, heq⟩
    exact { err := rfl, run := rfl, pcAdvance := by simp [setsPc], pcJump := fun _ => zext9_le _,
            fl := .inl rfl, out := .inl rfl, mem := .inl rfl }

theorem execCall_top {a : Byte} (r : RegIx) (ha : a.toNat = r.val) {s : State} (h : 254 ≤ s.pc.toNat) :
    execCall a s = .next (s.fail (.outOfBounds .mem (s.pc.toNat + 2))) := by
  have hlt : 255 < (s.pc.toNat : Int) + 2 := by omega
  rw [execCall, checkReg_legal r ha]
  simp [hlt, raise]

theorem execCall_zero {a : Byte} (r : RegIx) (ha : a.toNat = r.val) {s : State} (hpc : s.pc.toNat ≤ 253)
    (h : s.sp.toNat = 0) : execCall a s = .next (s.fail (.outOfBounds .mem (-1))) := by
  have hlt : ¬ (255 < (s.pc.toNat : Int) + 2) := by omega
  rw [execCall, checkReg_legal r ha]
  simp only [hlt, if_false]
  exact pushByte_zero h _ _

/-- CALL with a return address in memory and room below. -/
theorem execCall_ok {a : Byte} (r : RegIx) (ha : a.toNat = r.val) {s : State} (hpc : s.pc.toNat ≤ 253)
    (h : s.sp.toNat ≠ 0) :
    execCall a s = .next (((s.setSp (s.sp - 1#8)).store (s.sp.toNat - 1) (BitVec.ofNat 8 (s.pc.toNat + 2))).jump
      (zext9 ((s.setSp (s.sp - 1#8)).reg r))) := by
  have hlt : ¬ (255 < (s.pc.toNat : Int) + 2) := by omega
  rw [execCall, checkReg_legal r ha]
  simp only [hlt, if_false]
  rw [pushByte_ok h]
  have : mask8 ((s.pc.toNat : Int) + 2) = BitVec.ofNat 8 (s.pc.toNat + 2) := by
    rw [← mask8_natCast]; rfl
  simp only [this, State.store_reg]

theorem answers_call (a : Byte) (s : State) : Answers (.call a) s (execCall a s) := by
  by_cases ha : 7 < a.toNat
  · exact .inl ⟨_, .inl ⟨a, by simp [regOperands], ha, rfl⟩, checkReg_illegal ha s _⟩
  by_cases hpc : 254 ≤ s.pc.toNat
  · exact .inl ⟨_, .inr (.inr (.inl ⟨rfl, hpc, rfl⟩)), execCall_top ⟨a.toNat, by omega⟩ rfl hpc⟩
  by_cases h : s.sp.toNat = 0
  · exact .inl ⟨_, .inr (.inr (.inr (.inl ⟨.inr rfl, rfl⟩))), execCall_zero ⟨a.toNat, by omega⟩ rfl (by omega) h⟩
  · refine .inr ⟨_, ?_, execCall_ok ⟨a.toNat, by omega⟩ rfl (by omega) h⟩
    exact { err := rfl, run := rfl, pcAdvance := by simp [setsPc], pcJump := fun _ => zext9_le _,
            fl := .inl rfl, out := .inl rfl, mem := .inr ⟨.inr rfl, h, _, rfl⟩ }

/-- The one inversion lemma of `exec`. -/
theorem exec_answers (i : Instr) (s : State) : Answers i s (exec i s) := by
  cases i with
  | hlt => exact answers_hlt s
  | ret => exact answers_ret s
  | push a => exact answers_push a s
  | pop a => exact answers_pop a s
  | prn a => exact answers_prn a s
  | call a => exact answers_call a s
  | inc a => exact answers_aluOne (.inc a) a s _ rfl (by simp) rfl fun _ => rfl
  | dec a => exact answers_aluOne (.dec a) a s _ rfl (by simp) rfl fun _ => rfl
  | not a => exact answers_aluOne (.not a) a s _ rfl (by simp) rfl fun _ => rfl
  | ldi a imm => exact answers_ldi a imm s
  | add a b => exact answers_aluTwo (.add a b) a b s rfl (by simp) rfl fun _ _ => .inl ⟨_, rfl⟩
  | sub a b => exact answers_aluTwo (.sub a b) a b s rfl (by simp) rfl fun _ _ => .inl ⟨_, rfl⟩
  | mul a b => exact answers_aluTwo (.mul a b) a b s rfl (by simp) rfl fun _ _ => .inl ⟨_, rfl⟩
  | div a b =>
    refine answers_aluTwo (.div a b) a b s rfl (by simp) rfl fun x y => ?_
    by_cases hy : y.toNat = 0
    · exact .inr (.inl ⟨.inl rfl, by simp [opcodeOf, aluDiv, hy]⟩)
    · exact .inl ⟨_, by simp only [opcodeOf, alu_div, aluDiv, hy, if_false]; rfl⟩
  | mod a b =>
    refine answers_aluTwo (.mod a b) a b s rfl (by simp) rfl fun x y => ?_
    by_cases hy : y.toNat = 0
    · exact .inr (.inl ⟨.inr rfl, by simp [opcodeOf, aluMod, hy]⟩)
    · exact .inl ⟨_, by simp only [opcodeOf, alu_mod, aluMod, hy, if_false]; rfl⟩
  | cmp a b => exact answers_aluTwo (.cmp a b) a b s rfl (by simp) rfl fun _ _ => .inr (.inr ⟨rfl, _, rfl⟩)
  | and a b => exact answers_aluTwo (.and a b) a b s rfl (by simp) rfl fun _ _ => .inl ⟨_, rfl⟩
  | or a b => exact answers_aluTwo (.or a b) a b s rfl (by simp) rfl fun _ _ => .inl ⟨_, rfl⟩
  | xor a b => exact answers_aluTwo (.xor a b) a b s rfl (by simp) rfl fun _ _ => .inl ⟨_, rfl⟩
  | shl a b => exact answers_aluTwo (.shl a b) a b s rfl (by simp) rfl fun _ _ => .inl ⟨_, rfl⟩
  | shr a b => exact answers_aluTwo (.shr a b) a b s rfl (by simp) rfl fun _ _ => .inl ⟨_, rfl⟩

end Sys2Proof.Machine
end

