-- ==== Sys2Proof/Laws/PerInstr.lean ====
section
/-! SUPPORT. The per-instruction family Format: an instruction's encoding is one opcode byte whose count field is
the number of operand bytes after it (30_encoding.md R80, R82, R85 (a)), and its register operands are among
those bytes. -/

namespace Sys2Proof.Laws.Format

/-- The format of one instruction. -/
def Statement (i : Instr) : Prop :=
  ∃ ir ops, encode i = ir :: ops ∧ operandCount ir = ops.length ∧ ops.length ≤ 2 ∧ regOperands i <+: ops

theorem of_operands (i : Instr) (h : (operandsOf i).length ≤ 2) (hp : regOperands i <+: operandsOf i) :
    Statement i :=
  ⟨opcodeOf i, operandsOf i, rfl, operandCount_opcodeOf i, h, hp⟩

theorem hlt : Statement .hlt := of_operands _ (by simp [operandsOf]) (by simp [operandsOf, regOperands])
theorem ret : Statement .ret := of_operands _ (by simp [operandsOf]) (by simp [operandsOf, regOperands])
theorem push (a : Byte) : Statement (.push a) :=
  of_operands _ (by simp [operandsOf]) (by simp [operandsOf, regOperands])
theorem pop (a : Byte) : Statement (.pop a) :=
  of_operands _ (by simp [operandsOf]) (by simp [operandsOf, regOperands])
theorem prn (a : Byte) : Statement (.prn a) :=
  of_operands _ (by simp [operandsOf]) (by simp [operandsOf, regOperands])
theorem call (a : Byte) : Statement (.call a) :=
  of_operands _ (by simp [operandsOf]) (by simp [operandsOf, regOperands])
theorem inc (a : Byte) : Statement (.inc a) :=
  of_operands _ (by simp [operandsOf]) (by simp [operandsOf, regOperands])
theorem dec (a : Byte) : Statement (.dec a) :=
  of_operands _ (by simp [operandsOf]) (by simp [operandsOf, regOperands])
theorem not (a : Byte) : Statement (.not a) :=
  of_operands _ (by simp [operandsOf]) (by simp [operandsOf, regOperands])
theorem ldi (a imm : Byte) : Statement (.ldi a imm) :=
  of_operands _ (by simp [operandsOf]) (by simp [operandsOf, regOperands])
theorem add (a b : Byte) : Statement (.add a b) :=
  of_operands _ (by simp [operandsOf]) (by simp [operandsOf, regOperands])
theorem sub (a b : Byte) : Statement (.sub a b) :=
  of_operands _ (by simp [operandsOf]) (by simp [operandsOf, regOperands])
theorem mul (a b : Byte) : Statement (.mul a b) :=
  of_operands _ (by simp [operandsOf]) (by simp [operandsOf, regOperands])
theorem div (a b : Byte) : Statement (.div a b) :=
  of_operands _ (by simp [operandsOf]) (by simp [operandsOf, regOperands])
theorem mod (a b : Byte) : Statement (.mod a b) :=
  of_operands _ (by simp [operandsOf]) (by simp [operandsOf, regOperands])
theorem cmp (a b : Byte) : Statement (.cmp a b) :=
  of_operands _ (by simp [operandsOf]) (by simp [operandsOf, regOperands])
theorem and (a b : Byte) : Statement (.and a b) :=
  of_operands _ (by simp [operandsOf]) (by simp [operandsOf, regOperands])
theorem or (a b : Byte) : Statement (.or a b) :=
  of_operands _ (by simp [operandsOf]) (by simp [operandsOf, regOperands])
theorem xor (a b : Byte) : Statement (.xor a b) :=
  of_operands _ (by simp [operandsOf]) (by simp [operandsOf, regOperands])
theorem shl (a b : Byte) : Statement (.shl a b) :=
  of_operands _ (by simp [operandsOf]) (by simp [operandsOf, regOperands])
theorem shr (a b : Byte) : Statement (.shr a b) :=
  of_operands _ (by simp [operandsOf]) (by simp [operandsOf, regOperands])

end Sys2Proof.Laws.Format
end

