-- ==== Sys2Proof/Laws/Step.lean ====
section
/-! SUPPORT. What one step can do, said once: a Halted engine has no step; a Running one raises at the fetch, or
runs the instruction whose bytes stand at `pc` (40_engine.md R114 to R117, R123). -/

namespace Sys2Proof.Machine

theorem step_running {s : State} (h : s.run = .running) : step s = fetchDecode s fun i => exec i s := by
  simp [step, h]

theorem step_halted {s : State} (h : s.run = .halted) :
    step s = .fault (if s.err.kind = .none then .halted else .failed) := by
  simp [step, h]

theorem codeBytes_length (s : State) : (codeBytes s).length = 256 - s.pc.toNat := by
  simp [codeBytes]

theorem codeBytes_getElem {s : State} {j : Nat} (h : j < (codeBytes s).length) :
    (codeBytes s)[j] = s.cell (s.pc.toNat + j) := by
  simp [codeBytes]

/-- Operand bytes that lie in memory are read, in ascending order. -/
theorem readOperands_ok (s : State) (k : List Byte → Answer) (n a : Nat) (h : a + n ≤ 256) :
    readOperands n (a : Int) s k = k ((List.range n).map fun j => s.cell (a + j)) := by
  induction n generalizing a k with
  | zero => simp [readOperands]
  | succ n ih =>
    rw [readOperands, memRead_ok (by omega)]
    have := ih (fun bs => k (s.cell a :: bs)) (a + 1) (by omega)
    push_cast at this
    rw [this, List.range_succ_eq_map, List.map_cons, List.map_map]
    congr 2
    apply List.map_congr_left
    intro j _
    simp only [Function.comp_apply]
    congr 1
    omega

/-- Operand bytes that do not all lie in memory raise with the first address past it. -/
theorem readOperands_out (s : State) (k : List Byte → Answer) (n a : Nat) (ha : a ≤ 256) (h : 256 < a + n) :
    readOperands n (a : Int) s k = .next (s.fail (.outOfBounds .mem 256)) := by
  induction n generalizing a k with
  | zero => omega
  | succ n ih =>
    by_cases ha' : a = 256
    · subst ha'
      exact memRead_out (by omega) s _
    · rw [readOperands, memRead_ok (by omega)]
      exact_mod_cast ih (fun bs => k (s.cell a :: bs)) (a + 1) (by omega) (by omega)

/-- Why a fetch raises, with the error it raises: items 1 to 5 of 60_exceptions.md R234, in that order. -/
inductive FetchCause (s : State) : Cause → Prop where
  | opcodeFetch (h : 256 ≤ s.pc.toNat) : FetchCause s (.outOfBounds .mem s.pc.toNat)
  | countThree (h : s.pc.toNat ≤ 255) (hc : operandCount s.opcode = 3) : FetchCause s (.invalidOpcode s.opcode)
  | operandFetch (h : s.pc.toNat ≤ 255) (hc : operandCount s.opcode ≠ 3)
      (ho : 256 ≤ s.pc.toNat + operandCount s.opcode) : FetchCause s (.outOfBounds .mem 256)
  | absent (h : s.pc.toNat + operandCount s.opcode ≤ 255) (hc : operandCount s.opcode ≠ 3)
      (hd : dispatch s.opcode = none) : FetchCause s (.invalidOpcode s.opcode)

/-- The cells from `pc` on hold the bytes of an instruction. -/
def Fetched (s : State) (i : Instr) : Prop :=
  s.pc.toNat + operandCount s.opcode ≤ 255 ∧ s.opcode = opcodeOf i ∧
    (List.range (operandCount s.opcode)).map (fun j => s.cell (s.pc.toNat + 1 + j)) = operandsOf i

/-- Parts 1 to 4 of the cycle: an error of the fetch, or the instruction whose bytes stand at `pc`. -/
theorem fetchDecode_cases (s : State) (k : Instr → Answer) :
    (∃ c, FetchCause s c ∧ fetchDecode s k = .next (s.fail c)) ∨
      ∃ i, Fetched s i ∧ fetchDecode s k = k i := by
  by_cases hpc : 256 ≤ s.pc.toNat
  · exact .inl ⟨_, .opcodeFetch hpc, memRead_out (by omega) s _⟩
  have hfd := memRead_ok (a := s.pc.toNat) (by omega) s (fun ir =>
    if operandCount ir = 3 then raise (.invalidOpcode ir) s
    else readOperands (operandCount ir) (s.pc.toNat + 1) s fun ops =>
      match lookupInstr ir ops with
      | none => raise (.invalidOpcode ir) s
      | some i => k i)
  change fetchDecode s k = _ at hfd
  change fetchDecode s k = (if operandCount s.opcode = 3 then raise (.invalidOpcode s.opcode) s
    else readOperands (operandCount s.opcode) (s.pc.toNat + 1) s fun ops =>
      match lookupInstr s.opcode ops with
      | none => raise (.invalidOpcode s.opcode) s
      | some i => k i) at hfd
  by_cases hc : operandCount s.opcode = 3
  · rw [if_pos hc] at hfd
    exact .inl ⟨_, .countThree (by omega) hc, hfd⟩
  rw [if_neg hc] at hfd
  by_cases ho : 256 ≤ s.pc.toNat + operandCount s.opcode
  · refine .inl ⟨_, .operandFetch (by omega) hc ho, ?_⟩
    rw [hfd]
    exact_mod_cast readOperands_out s _ (operandCount s.opcode) (s.pc.toNat + 1) (by omega) (by omega)
  have hrd := readOperands_ok s (fun ops =>
      match lookupInstr s.opcode ops with
      | none => raise (.invalidOpcode s.opcode) s
      | some i => k i) (operandCount s.opcode) (s.pc.toNat + 1) (by omega)
  push_cast at hrd
  rw [hrd] at hfd
  cases hl : lookupInstr s.opcode ((List.range (operandCount s.opcode)).map fun j => s.cell (s.pc.toNat + 1 + j)) with
  | none =>
    rw [hl] at hfd
    exact .inl ⟨_, .absent (by omega) hc ((lookupInstr_eq_none (by simp)).1 hl), hfd⟩
  | some i =>
    rw [hl] at hfd
    have := lookupInstr_eq_some hl
    exact .inr ⟨i, ⟨by omega, this.1, this.2⟩, hfd⟩

/-- The one inversion lemma of `step`. -/
theorem step_cases {s : State} (h : s.run = .running) :
    (∃ c, FetchCause s c ∧ step s = .next (s.fail c)) ∨ ∃ i, Fetched s i ∧ step s = exec i s := by
  rw [step_running h]
  exact fetchDecode_cases s _

/-- An answer that is a next state came from a Running state. -/
theorem running_of_step {s t : State} (h : step s = .next t) : s.run = .running := by
  cases hr : s.run with
  | running => rfl
  | halted => rw [step_halted hr] at h; cases h

/-- What a step that answers `t` did: a fetch error, a handler's error, or a completed instruction. -/
theorem step_next_cases {s t : State} (h : step s = .next t) :
    (∃ c, FetchCause s c ∧ t = s.fail c) ∨
      ∃ i, Fetched s i ∧ ((∃ c, HandlerCause i s c ∧ t = s.fail c) ∨ Completed i s t) := by
  rcases step_cases (running_of_step h) with ⟨c, hc, hs⟩ | ⟨i, hi, hs⟩
  · rw [hs] at h
    injection h with h
    exact .inl ⟨c, hc, h.symm⟩
  · refine .inr ⟨i, hi, ?_⟩
    rcases exec_answers i s with ⟨c, hc, he⟩ | ⟨u, hu, he⟩ <;> rw [hs, he] at h <;> injection h with h <;> subst h
    · exact .inl ⟨c, hc, rfl⟩
    · exact .inr hu

end Sys2Proof.Machine
end

