-- ==== Sys2Proof/Tests/Slice0.lean ====
section
/-! SUPPORT. Tests on fixed values, each of one step or one call, with the expected result taken from
95_test_vectors.md, or worked out by hand from the rule named; and, for every statement of
Certificates/Slice0/Obligations.lean that has hypotheses, a witness that meets them, at the boundary values of each
clause. -/

namespace Sys2Proof.Tests

open Sys2Proof.Machine

/-! ### Helpers -/

/-- The reset state with `pc` and some registers set, and bytes placed from `pc` on. -/
def machine (pc : Nat) (bytes : List Byte) (regs : List (RegIx × Byte) := []) : State :=
  placeBytes (regs.foldl (fun s e => s.setReg e.1 e.2) { State.reset with pc := BitVec.ofNat 9 pc }) pc bytes

/-- The next state of an answer. -/
def after : Answer → Option State
  | .next t => some t
  | .fault _ => none
  | .refused _ => none

/-- An answer whose next state passes a check is a next state that passes it. -/
theorem of_after {o : Answer} {p : State → Bool} (h : (after o).any p = true) : ∃ t, o = .next t ∧ p t = true := by
  cases o with
  | next t => exact ⟨t, rfl, h⟩
  | fault r => cases h
  | refused r => cases h

/-- The next state of one step passes a check. -/
def stepGives (s : State) (p : State → Bool) : Bool := (after (step s)).any p

/-- The step ends in an error with a record, and nothing but `run` and `err` differs. -/
def stepFails (s : State) (kind : ErrKind) (space : Space) (val : Word9) : Bool :=
  stepGives s fun t => decide (t = s.afterError kind space val)

/-! ### Decoding: one word of every instruction, its bits written out from 30_encoding.md R86 -/

theorem test_decode_hlt : decode [0b00000001#8] = .ok (.hlt, []) := by decide
theorem test_decode_ret : decode [0b00010001#8] = .ok (.ret, []) := by decide
theorem test_decode_push : decode [0b01000101#8, 0b00000111#8] = .ok (.push 7#8, []) := by decide
theorem test_decode_pop : decode [0b01000110#8, 0b00000111#8] = .ok (.pop 7#8, []) := by decide
theorem test_decode_prn : decode [0b01000111#8, 0b00000111#8] = .ok (.prn 7#8, []) := by decide
theorem test_decode_call : decode [0b01010000#8, 0b00000111#8] = .ok (.call 7#8, []) := by decide
theorem test_decode_inc : decode [0b01100101#8, 0b00000111#8] = .ok (.inc 7#8, []) := by decide
theorem test_decode_dec : decode [0b01100110#8, 0b00000111#8] = .ok (.dec 7#8, []) := by decide
theorem test_decode_not : decode [0b01101001#8, 0b00000111#8] = .ok (.not 7#8, []) := by decide
theorem test_decode_ldi : decode [0b10000010#8, 0b00000010#8, 0b10000001#8] = .ok (.ldi 2#8 129#8, []) := by decide
theorem test_decode_add : decode [0b10100000#8, 0b00000010#8, 0b10000001#8] = .ok (.add 2#8 129#8, []) := by decide
theorem test_decode_sub : decode [0b10100001#8, 0b00000010#8, 0b10000001#8] = .ok (.sub 2#8 129#8, []) := by decide
theorem test_decode_mul : decode [0b10100010#8, 0b00000010#8, 0b10000001#8] = .ok (.mul 2#8 129#8, []) := by decide
theorem test_decode_div : decode [0b10100011#8, 0b00000010#8, 0b10000001#8] = .ok (.div 2#8 129#8, []) := by decide
theorem test_decode_mod : decode [0b10100100#8, 0b00000010#8, 0b10000001#8] = .ok (.mod 2#8 129#8, []) := by decide
theorem test_decode_cmp : decode [0b10100111#8, 0b00000010#8, 0b10000001#8] = .ok (.cmp 2#8 129#8, []) := by decide
theorem test_decode_and : decode [0b10101000#8, 0b00000010#8, 0b10000001#8] = .ok (.and 2#8 129#8, []) := by decide
theorem test_decode_or : decode [0b10101010#8, 0b00000010#8, 0b10000001#8] = .ok (.or 2#8 129#8, []) := by decide
theorem test_decode_xor : decode [0b10101011#8, 0b00000010#8, 0b10000001#8] = .ok (.xor 2#8 129#8, []) := by decide
theorem test_decode_shl : decode [0b10101100#8, 0b00000010#8, 0b10000001#8] = .ok (.shl 2#8 129#8, []) := by decide
theorem test_decode_shr : decode [0b10101101#8, 0b00000010#8, 0b10000001#8] = .ok (.shr 2#8 129#8, []) := by decide

/-- The table's numbering: the first byte is bits 7..0 (opcode_table.json). -/
theorem test_table_word_order : decodeTableWord 24 0x0800A0 = some (.add 0#8 8#8) := by decide

/-- Operand bits that the table does not give are 0. -/
theorem test_table_word_short : decodeTableWord 8 0x0182 = some (.ldi 0#8 0#8) := by decide

/-- 30_encoding.md R89: 0x00 is no NOP, 0xFF is unassigned, A5 is absent. -/
theorem test_decode_illegal :
    decode [0x00#8] = .error (.invalidOpcode 0x00#8) ∧ decode [0xFF#8] = .error (.invalidOpcode 0xFF#8) ∧
      decode [0xA5#8, 0#8, 1#8] = .error (.invalidOpcode 0xA5#8) := by decide

/-- A cut-short instruction is refused by name. -/
theorem test_decode_short :
    decode [] = .error (.missingByte 0) ∧ decode [0xA0#8, 0#8] = .error (.missingByte 2) := by decide

/-! ### WellFormed: an ill-formed term for each check -/

theorem test_wf_push : (Instr.push 7#8).wf = true ∧ (Instr.push 8#8).wf = false := by decide
theorem test_wf_pop : (Instr.pop 7#8).wf = true ∧ (Instr.pop 8#8).wf = false := by decide
theorem test_wf_prn : (Instr.prn 7#8).wf = true ∧ (Instr.prn 8#8).wf = false := by decide
theorem test_wf_call : (Instr.call 7#8).wf = true ∧ (Instr.call 8#8).wf = false := by decide
theorem test_wf_inc : (Instr.inc 7#8).wf = true ∧ (Instr.inc 8#8).wf = false := by decide
theorem test_wf_dec : (Instr.dec 7#8).wf = true ∧ (Instr.dec 8#8).wf = false := by decide
theorem test_wf_not : (Instr.not 7#8).wf = true ∧ (Instr.not 8#8).wf = false := by decide
theorem test_wf_ldi : (Instr.ldi 7#8 255#8).wf = true ∧ (Instr.ldi 8#8 1#8).wf = false := by decide
theorem test_wf_add : (Instr.add 8#8 0#8).wf = false ∧ (Instr.add 7#8 255#8).wf = false := by decide
theorem test_wf_sub : (Instr.sub 8#8 0#8).wf = false ∧ (Instr.sub 7#8 255#8).wf = false := by decide
theorem test_wf_mul : (Instr.mul 8#8 0#8).wf = false ∧ (Instr.mul 7#8 255#8).wf = false := by decide
theorem test_wf_div : (Instr.div 8#8 0#8).wf = false ∧ (Instr.div 7#8 255#8).wf = false := by decide
theorem test_wf_mod : (Instr.mod 8#8 0#8).wf = false ∧ (Instr.mod 7#8 255#8).wf = false := by decide
theorem test_wf_cmp : (Instr.cmp 8#8 0#8).wf = false ∧ (Instr.cmp 7#8 255#8).wf = false := by decide
theorem test_wf_and : (Instr.and 8#8 0#8).wf = false ∧ (Instr.and 7#8 255#8).wf = false := by decide
theorem test_wf_or : (Instr.or 8#8 0#8).wf = false ∧ (Instr.or 7#8 255#8).wf = false := by decide
theorem test_wf_xor : (Instr.xor 8#8 0#8).wf = false ∧ (Instr.xor 7#8 255#8).wf = false := by decide
theorem test_wf_shl : (Instr.shl 8#8 0#8).wf = false ∧ (Instr.shl 7#8 255#8).wf = false := by decide
theorem test_wf_shr : (Instr.shr 8#8 0#8).wf = false ∧ (Instr.shr 7#8 255#8).wf = false := by decide

/-! ### Instructions: vectors of 95_test_vectors.md -/

/-- V-ALU-1. -/
theorem test_add_wraps : stepGives (machine 0 [0xA0#8, 0#8, 1#8] [(0, 0xC8#8), (1, 0x64#8)]) (fun t => t.reg 0 == 0x2C#8 && t.pc == 3#9) = true := by decide

/-- V-ALU-3. -/
theorem test_add_same_register : stepGives (machine 0 [0xA0#8, 2#8, 2#8] [(2, 0x90#8)]) (fun t => t.reg 2 == 0x20#8 && t.pc == 3#9) = true := by decide

/-- V-ALU-4. -/
theorem test_sub_wraps : stepGives (machine 0 [0xA1#8, 0#8, 1#8] [(0, 0x03#8), (1, 0x05#8)]) (fun t => t.reg 0 == 0xFE#8 && t.pc == 3#9) = true := by decide

/-- V-ALU-8. -/
theorem test_mul_low_byte : stepGives (machine 0 [0xA2#8, 0#8, 1#8] [(0, 0x14#8), (1, 0x0D#8)]) (fun t => t.reg 0 == 0x04#8 && t.pc == 3#9) = true := by decide

/-- V-ALU-9. -/
theorem test_div_floor : stepGives (machine 0 [0xA3#8, 0#8, 1#8] [(0, 0x07#8), (1, 0x02#8)]) (fun t => t.reg 0 == 0x03#8 && t.pc == 3#9) = true := by decide

/-- V-ALU-15. -/
theorem test_mod_remainder : stepGives (machine 0 [0xA4#8, 0#8, 1#8] [(0, 0xFF#8), (1, 0x10#8)]) (fun t => t.reg 0 == 0x0F#8 && t.pc == 3#9) = true := by decide

/-- V-ALU-18. -/
theorem test_inc_r7_wraps : stepGives (machine 0 [0x65#8, 7#8] [(7, 0xFF#8)]) (fun t => t.reg 7 == 0x00#8 && t.pc == 2#9 && t.err == noErr) = true := by decide

/-- V-ALU-19. -/
theorem test_dec_wraps : stepGives (machine 0 [0x66#8, 3#8] []) (fun t => t.reg 3 == 0xFF#8 && t.pc == 2#9) = true := by decide

/-- V-ALU-20. -/
theorem test_and : stepGives (machine 0 [0xA8#8, 0#8, 1#8] [(0, 0xCC#8), (1, 0xAA#8)]) (fun t => t.reg 0 == 0x88#8 && t.pc == 3#9) = true := by decide

/-- V-ALU-21. -/
theorem test_or : stepGives (machine 0 [0xAA#8, 0#8, 1#8] [(0, 0xCC#8), (1, 0xAA#8)]) (fun t => t.reg 0 == 0xEE#8 && t.pc == 3#9) = true := by decide

/-- V-ALU-22. -/
theorem test_xor : stepGives (machine 0 [0xAB#8, 0#8, 1#8] [(0, 0xCC#8), (1, 0xAA#8)]) (fun t => t.reg 0 == 0x66#8 && t.pc == 3#9) = true := by decide

/-- V-ALU-24. -/
theorem test_not : stepGives (machine 0 [0x69#8, 0#8] [(0, 0x55#8)]) (fun t => t.reg 0 == 0xAA#8 && t.pc == 2#9) = true := by decide

/-- V-ALU-27. -/
theorem test_shl_loses_bits : stepGives (machine 0 [0xAC#8, 0#8, 1#8] [(0, 0x81#8), (1, 0x01#8)]) (fun t => t.reg 0 == 0x02#8 && t.pc == 3#9) = true := by decide

/-- V-ALU-30. -/
theorem test_shl_by_255 : stepGives (machine 0 [0xAC#8, 0#8, 1#8] [(0, 0x01#8), (1, 0xFF#8)]) (fun t => t.reg 0 == 0x00#8 && t.pc == 3#9) = true := by decide

/-- V-ALU-32. -/
theorem test_shr_logical : stepGives (machine 0 [0xAD#8, 0#8, 1#8] [(0, 0x80#8), (1, 0x07#8)]) (fun t => t.reg 0 == 0x01#8 && t.pc == 3#9) = true := by decide

/-- V-ALU-33. -/
theorem test_shr_by_8 : stepGives (machine 0 [0xAD#8, 0#8, 1#8] [(0, 0xFF#8), (1, 0x08#8)]) (fun t => t.reg 0 == 0x00#8 && t.pc == 3#9) = true := by decide

/-- V-ALU-35. -/
theorem test_cmp_unsigned : stepGives (machine 0 [0xA7#8, 0#8, 1#8] [(0, 0xC8#8), (1, 0x64#8)]) (fun t => t.fl == .greater && t.pc == 3#9) = true := by decide

/-- V-ALU-37. -/
theorem test_cmp_less : stepGives (machine 0 [0xA7#8, 0#8, 1#8] [(0, 0x00#8), (1, 0xFF#8)]) (fun t => t.fl == .less && t.pc == 3#9) = true := by decide

/-- V-DATA-2. -/
theorem test_ldi_sp : stepGives (machine 0 [0x82#8, 7#8, 128#8] []) (fun t => t.reg 7 == 0x80#8 && t.pc == 3#9) = true := by decide

/-- V-DATA-5. -/
theorem test_prn : stepGives (machine 0 [0x47#8, 2#8] [(2, 0xC8#8)]) (fun t => t.out == [200#8] && t.pc == 2#9) = true := by decide

/-- V-DATA-9: HLT at 255 is a clean halt with `pc = 256`. -/
theorem test_hlt_at_top :
    stepGives (machine 255 [0x01#8]) (fun t => t.run == .halted && t.err == noErr && t.pc == 0x100#9) = true := by decide

/-- V-DATA-10: after HLT there is no second step. -/
theorem test_no_step_after_hlt :
    stepGives (machine 0 [0x01#8, 0x01#8]) (fun t => (after (step t)).isNone) = true := by decide

/-- V-STK-1. -/
theorem test_push : stepGives (machine 0 [0x45#8, 0#8] [(0, 0x05#8)]) (fun t => t.sp == 0xF3#8 && t.cell 0xF3 == 5#8 && t.pc == 2#9) = true := by decide

/-- V-STK-2. -/
theorem test_push_r7 : stepGives (machine 0 [0x45#8, 7#8] []) (fun t => t.sp == 0xF3#8 && t.cell 0xF3 == 0xF3#8) = true := by decide

/-- V-STK-6: the byte pushed over the next instruction is what the next step fetches (HLT, a clean halt). -/
theorem test_push_over_code :
    stepGives (machine 0 [0x45#8, 0#8, 0xFF#8] [(0, 1#8), (7, 3#8)])
      (fun t => stepGives t fun u => u.run == .halted && u.err == noErr && u.pc == 3#9) = true := by decide

/-- V-STK-7. -/
theorem test_pop :
    stepGives ((machine 0 [0x46#8, 1#8] [(7, 0xF3#8)]).store 0xF3 5#8)
      (fun t => t.reg 1 == 5#8 && t.sp == 0xF4#8 && t.cell 0xF3 == 5#8 && t.pc == 2#9) = true := by decide

/-- V-STK-12: `POP R7` from the top cell is checked on the popped byte, so it completes. -/
theorem test_pop_r7_at_top :
    stepGives ((machine 0 [0x46#8, 7#8] [(7, 0xFF#8)]).store 0xFF 3#8)
      (fun t => t.sp == 4#8 && t.pc == 2#9 && t.err == noErr) = true := by decide

/-- V-STK-14. -/
theorem test_call :
    stepGives (machine 6 [0x50#8, 1#8] [(1, 0x0C#8)])
      (fun t => t.sp == 0xF3#8 && t.cell 0xF3 == 8#8 && t.pc == 0x0C#9) = true := by decide

/-- V-STK-15: the register is read after the push. -/
theorem test_call_r7 :
    stepGives (machine 0x20 [0x50#8, 7#8])
      (fun t => t.sp == 0xF3#8 && t.cell 0xF3 == 0x22#8 && t.pc == 0xF3#9) = true := by decide

/-- V-STK-20. -/
theorem test_ret :
    stepGives ((machine 0x0F [0x11#8] [(7, 0xF3#8)]).store 0xF3 8#8)
      (fun t => t.pc == 8#9 && t.sp == 0xF4#8) = true := by decide

/-! ### Errors: vectors of 95_test_vectors.md, each with all the rest of the state unchanged -/

/-- V-ALU-16. -/
theorem test_mod_zero :
    stepFails (machine 0x20 [0xA4#8, 0#8, 1#8] [(0, 9#8)]) .divisionByZero .mem 0x0A4#9 = true := by decide

/-- V-ALU-40 and V-ALU-41: the first operand first, and before the divisor. -/
theorem test_operand_order :
    stepFails (machine 0 [0xA0#8, 9#8, 12#8]) .outOfBoundsAccess .reg 9#9 = true ∧
      stepFails (machine 0 [0xA3#8, 8#8, 1#8]) .outOfBoundsAccess .reg 8#9 = true := by decide

/-- V-STK-4 and V-STK-9: the two ends of the stack. -/
theorem test_stack_ends :
    stepFails (machine 0x10 [0x45#8, 0#8] [(0, 5#8), (7, 0#8)]) .outOfBoundsAccess .mem 0x1FF#9 = true ∧
      stepFails (machine 0 [0x46#8, 1#8] [(7, 0xFF#8)]) .outOfBoundsAccess .mem 0x100#9 = true := by decide

/-- V-STK-11: `POP R7` of 255. -/
theorem test_pop_r7_past_top :
    stepFails ((machine 0 [0x46#8, 7#8] [(7, 0xF3#8)]).store 0xF3 0xFF#8) .outOfBoundsAccess .mem 0x100#9 = true := by
  decide

/-- V-STK-17, V-STK-19 and item 9 before 10 of 60_exceptions.md R234. -/
theorem test_call_at_top :
    stepFails (machine 0xFE [0x50#8, 1#8] [(1, 0x10#8)]) .outOfBoundsAccess .mem 0x100#9 = true ∧
      stepFails (machine 0xFE [0x50#8, 8#8]) .outOfBoundsAccess .reg 8#9 = true ∧
      stepFails (machine 0xFE [0x50#8, 1#8] [(7, 0#8)]) .outOfBoundsAccess .mem 0x100#9 = true := by decide

/-- V-STK-21. -/
theorem test_ret_at_top :
    stepFails ((machine 0x0F [0x11#8] [(7, 0xFF#8)]).store 0xFF 8#8) .outOfBoundsAccess .mem 0x100#9 = true := by decide

/-- V-ENG-1, V-ENG-2 and V-ENG-5. -/
theorem test_invalid_opcodes :
    stepFails (machine 0 []) .invalidOpcode .mem 0#9 = true ∧
      stepFails (machine 255 [0xFF#8]) .invalidOpcode .mem 0x0FF#9 = true ∧
      stepFails (machine 0 [0xA5#8, 0#8, 1#8]) .invalidOpcode .mem 0x0A5#9 = true := by decide

/-- V-ENG-8, V-ENG-9, V-ENG-12 and V-ENG-13: fetches past memory, before the table lookup. -/
theorem test_fetch_past_memory :
    stepFails (machine 256 []) .outOfBoundsAccess .mem 0x100#9 = true ∧
      stepFails (machine 255 [0x47#8]) .outOfBoundsAccess .mem 0x100#9 = true ∧
      stepFails (machine 254 [0x80#8, 0#8]) .outOfBoundsAccess .mem 0x100#9 = true ∧
      stepFails (machine 255 [0x40#8]) .outOfBoundsAccess .mem 0x100#9 = true := by decide

/-! ### The host's side -/

/-- 70_reset_and_hazards.md R272 and program P1's first instruction: load, then step. -/
theorem test_load_then_step :
    (loadProgram [0x82#8, 0#8, 8#8, 0x47#8, 0#8, 1#8]).any
      (fun s => stepGives s fun t => t.reg 0 == 8#8 && t.pc == 3#9) = true := by decide

/-- An instruction placed where the next step fetches is the one that runs, at reset and at another `pc`. -/
theorem test_with_fetch_word :
    stepGives (State.reset.withFetchWord 24 0x080082) (fun t => t.reg 0 == 8#8 && t.pc == 3#9) = true ∧
      stepGives ((machine 0xFD []).withFetchWord 24 0x070082) (fun t => t.reg 0 == 7#8 && t.pc == 0x100#9) = true := by
  decide

/-- The codes of 60_exceptions.md R230 and the bits of 10_state.md R29 on the host's interfaces, after S4b and
V-ALU-34. -/
theorem test_status_codes :
    stepGives (machine 0 [0xA3#8, 0#8, 1#8] [(0, 9#8)])
        (fun t => decide (status t = ⟨.halted, 2#3, 0#1, 0x0A3#9, 0#9⟩)) = true ∧
      stepGives (machine 0 [0xA7#8, 0#8, 1#8] [(0, 44#8), (1, 100#8)]) (fun t => flBits t.fl == 0b100#3) = true := by
  decide

/-- Reset discards everything (70_reset_and_hazards.md R270). -/
theorem test_reset_leaves_halted :
    stepGives (machine 0 [0x01#8]) (fun t => decide (hostReset t = State.reset)) = true := by decide

/-! ### Witnesses: states and operands that meet the hypotheses of the statements -/

/-- Operands of `OneRegResult`, `LoadImmediate`, `PrintRegister` and the index clauses of `PushInstruction`,
`PopInstruction` and `CallInstruction`: the last legal byte and the first illegal one. -/
theorem witness_one_register : (7#8 : Byte).toNat = (7 : RegIx).val ∧ 7 < (8#8 : Byte).toNat := by decide

/-- Operands of `TwoRegResult` and `CompareSetsFl`: both legal, the first illegal, the second illegal. -/
theorem witness_two_registers :
    ((7#8 : Byte).toNat = (7 : RegIx).val ∧ (0#8 : Byte).toNat = (0 : RegIx).val) ∧ 7 < (8#8 : Byte).toNat ∧
      ((7#8 : Byte).toNat ≤ 7 ∧ 7 < (255#8 : Byte).toNat) := by decide

/-- `DivisionResult` and `DivisionByZeroInFull`: a divisor of 1 and a divisor of 0, in the registers named. -/
theorem witness_division :
    (1#8 : Byte).toNat = (1 : RegIx).val ∧ (machine 0 [] [(1, 1#8)]).reg 1 ≠ 0#8 ∧ (machine 0 []).reg 1 = 0#8 := by
  decide

/-- `IllegalOpcodesAreRefused`: count 3 with nothing after it, and counts 0, 1 and 2 with just enough. -/
theorem witness_IllegalOpcodesAreRefused :
    (0xC0#8 : Byte).extractLsb 7 6 = 3#2 ∧ ((0x00#8 : Byte).extractLsb 7 6).toNat ≤ ([] : List Byte).length ∧
      ((0x40#8 : Byte).extractLsb 7 6).toNat ≤ [0#8].length ∧
      ((0x80#8 : Byte).extractLsb 7 6).toNat ≤ [0#8, 0#8].length ∧
      (∀ ir ∈ [0xC0#8, 0x00#8, 0x40#8, 0x80#8], (dispatch ir).isNone) := by decide

/-- `LoadedProgramStandsFromZero`: the longest program that fits and the shortest that does not. -/
theorem witness_LoadedProgramStandsFromZero :
    (List.replicate 256 1#8).length ≤ 256 ∧ 256 < (List.replicate 257 1#8).length := by
  rw [List.length_replicate, List.length_replicate]
  decide

/-- `StepRunsTheDecodedInstruction`: HLT in the last cell. -/
theorem witness_StepRunsTheDecodedInstruction :
    (machine 255 [0x01#8]).run = .running ∧ decode (codeBytes (machine 255 [0x01#8])) = .ok (.hlt, []) := by decide

/-- `HaltedHasNoSuccessor`: a Halted state of either kind. -/
theorem witness_HaltedHasNoSuccessor :
    stepGives (machine 0 [0x01#8]) (fun t => t.run == .halted && t.err.kind == .none) = true ∧
      stepGives (machine 0 []) (fun t => t.run == .halted && t.err.kind != .none) = true := by decide

/-- `OpcodeFetchPastMemory`: the first such `pc`. -/
theorem witness_OpcodeFetchPastMemory : (machine 256 []).run = .running ∧ 255 < (machine 256 []).pc.toNat := by decide

/-- `OperandFetchPastMemory`: each of its three cases, with an opcode in the table and one that is not. -/
theorem witness_OperandFetchPastMemory :
    ((machine 255 [0x47#8]).pc.toNat = 255 ∧ (machine 255 [0x47#8]).opcode.extractLsb 7 6 = 1#2) ∧
      ((machine 255 [0x80#8]).pc.toNat = 255 ∧ (machine 255 [0x80#8]).opcode.extractLsb 7 6 = 2#2) ∧
      ((machine 254 [0x82#8]).pc.toNat = 254 ∧ (machine 254 [0x82#8]).opcode.extractLsb 7 6 = 2#2) := by decide

/-- `CountThreeIsInvalidAnywhere`: in the last cell. -/
theorem witness_CountThreeIsInvalidAnywhere :
    (machine 255 [0xC0#8]).run = .running ∧ (machine 255 [0xC0#8]).pc.toNat ≤ 255 ∧
      (machine 255 [0xC0#8]).opcode.extractLsb 7 6 = 3#2 := by decide

/-- `AbsentOpcodeIsInvalid`: an absent ALU-class opcode whose last operand byte is in the last cell. -/
theorem witness_AbsentOpcodeIsInvalid :
    (machine 253 [0xA5#8]).run = .running ∧ (dispatch (machine 253 [0xA5#8]).opcode).isNone ∧
      (machine 253 [0xA5#8]).opcode.extractLsb 7 6 ≠ 3#2 ∧
      (machine 253 [0xA5#8]).pc.toNat + ((machine 253 [0xA5#8]).opcode.extractLsb 7 6).toNat ≤ 255 := by decide

/-- `CounterAdvance`: an instruction whose last byte is in the last cell, a CALL and a RET, each completed. -/
theorem witness_CounterAdvance :
    (∃ t, exec (.inc 0#8) (machine 254 []) = .next t ∧ (t.err.kind == .none) = true) ∧
      (∃ t, exec (.call 0#8) (machine 253 []) = .next t ∧ (t.err.kind == .none) = true) ∧
      (∃ t, exec .ret (machine 0 []) = .next t ∧ (t.err.kind == .none) = true) :=
  ⟨of_after (by decide), of_after (by decide), of_after (by decide)⟩

/-- `CounterRange`: a step from the last cell that leaves 256, and one that does not. -/
theorem witness_CounterRange :
    (∃ t, step (machine 253 [0x82#8, 0#8, 7#8]) = .next t ∧ (t.pc == 256#9) = true) ∧
      (∃ t, step (machine 255 [0x11#8]) = .next t ∧ (t.pc == 0#9) = true) :=
  ⟨of_after (by decide), of_after (by decide)⟩

/-- `RegisterIndexIsChecked`: both bytes illegal, and only the second. -/
theorem witness_RegisterIndexIsChecked :
    (regOperands (.add 9#8 12#8)).find? (fun a => decide (7 < a.toNat)) = some 9#8 ∧
      (regOperands (.add 7#8 8#8)).find? (fun a => decide (7 < a.toNat)) = some 8#8 := by decide

/-- `ErrorsArePrecise`: a step that records an error where none was recorded. -/
theorem witness_ErrorsArePrecise :
    (machine 0 []).err.kind = .none ∧ ∃ t, step (machine 0 []) = .next t ∧ (t.err.kind != .none) = true :=
  ⟨rfl, of_after (by decide)⟩

/-- `TwoWaysToStop`: a step that halts cleanly and one that records an error, from a Running state with no error. -/
theorem witness_TwoWaysToStop :
    (∃ t, step (machine 0 [0x01#8]) = .next t ∧ (t.run == .halted && t.err.kind == .none) = true) ∧
      (∃ t, step (machine 0 []) = .next t ∧ (t.run == .halted && t.err.kind != .none) = true) :=
  ⟨of_after (by decide), of_after (by decide)⟩

/-- `UnsupportedAluNeverRaised`: a DIV step that raises another error. -/
theorem witness_UnsupportedAluNeverRaised :
    (machine 0 [0xA3#8]).err.kind ≠ .unsupportedAluOperation ∧
      ∃ t, step (machine 0 [0xA3#8]) = .next t ∧ (t.err.kind == .divisionByZero) = true :=
  ⟨by decide, of_after (by decide)⟩

/-- `AluRefusesOtherSelects`: LDI's opcode byte and an absent ALU-class one. -/
theorem witness_AluRefusesOtherSelects : alu 0x82#8 1#8 2#8 = .unsupported ∧ alu 0xA5#8 1#8 2#8 = .unsupported := by
  decide

/-- `StepKeepsTheInvariant` and `RunKeepsTheInvariant`: a state that meets the invariant, its memory not empty and
its `pc` at 254, and that has a step. -/
theorem witness_StepKeepsTheInvariant :
    (machine 254 [0x45#8, 1#8]).Inv ∧ ∃ t, step (machine 254 [0x45#8, 1#8]) = .next t ∧ (t.pc == 256#9) = true :=
  ⟨⟨by decide, by decide, ⟨rfl, rfl⟩, fun _ => rfl⟩, of_after (by decide)⟩

/-- `OnlyCompareChangesFl`: a step that changes `fl`. -/
theorem witness_OnlyCompareChangesFl :
    ∃ t, step (machine 0 [0xA7#8]) = .next t ∧ (t.fl != (machine 0 [0xA7#8]).fl) = true := of_after (by decide)

/-- `OnlyPushAndCallStore`: a PUSH and a CALL that change memory. -/
theorem witness_OnlyPushAndCallStore :
    (∃ t, step (machine 0 [0x45#8] [(0, 1#8)]) = .next t ∧ (t.mem != (machine 0 [0x45#8] [(0, 1#8)]).mem) = true) ∧
      (∃ t, step (machine 0 [0x50#8]) = .next t ∧ (t.mem != (machine 0 [0x50#8]).mem) = true) :=
  ⟨of_after (by decide), of_after (by decide)⟩

/-- `OnlyPrintExtendsOutput` and `OutputPersists`: a step that emits. -/
theorem witness_OnlyPrintExtendsOutput :
    ∃ t, step (machine 0 [0x47#8]) = .next t ∧ (t.out == [0#8]) = true := of_after (by decide)

/-- `RegistersWrittenAsListed`: POP to R1 may not write R2. -/
theorem witness_RegistersWrittenAsListed :
    (∃ t, exec (.pop 1#8) (machine 0 []) = .next t ∧ (t.sp == 0xF5#8) = true) ∧ ¬ mayWriteReg (.pop 1#8) 2 :=
  ⟨of_after (by decide), by simp [mayWriteReg]⟩

/-- `MemoryIsBoundsChecked`: the edges of both clauses. -/
theorem witness_MemoryIsBoundsChecked :
    addrOk 0 = true ∧ addrOk 255 = true ∧ addrOk (-1) = false ∧ addrOk 256 = false := by decide

/-- `StoredByteIsFetched`: the stack pointer three above `pc`. -/
theorem witness_StoredByteIsFetched :
    (machine 252 [] [(7, 255#8)]).sp.toNat = (machine 252 [] [(7, 255#8)]).pc.toNat + 3 := by decide

/-- `PushInstruction` and `PushThenPopRoundTrip`: the lowest stack pointer with room, and none. -/
theorem witness_PushInstruction : (machine 0 [] [(7, 1#8)]).sp ≠ 0#8 ∧ (machine 0 [] [(7, 0#8)]).sp = 0#8 := by decide

/-- `PopInstruction` and `ReturnInstruction`: the highest stack pointer that can go up, and 255; for `POP R7` the
same of the popped byte. -/
theorem witness_PopInstruction :
    (machine 0 [] [(7, 254#8)]).sp.toNat ≠ 255 ∧ (machine 0 [] [(7, 255#8)]).sp.toNat = 255 ∧
      (((machine 0 [] [(7, 255#8)]).store 255 254#8).cell 255).toNat ≠ 255 ∧
      (((machine 0 [] [(7, 255#8)]).store 255 255#8).cell 255).toNat = 255 := by decide

/-- `CallInstruction` and `CallThenReturnComesBack`: the last `pc` whose return address fits, with room and without,
and the first whose return address does not. -/
theorem witness_CallInstruction :
    ((machine 253 []).pc.toNat + 2 ≤ 255 ∧ (machine 253 []).sp ≠ 0#8) ∧
      ((machine 253 [] [(7, 0#8)]).pc.toNat + 2 ≤ 255 ∧ (machine 253 [] [(7, 0#8)]).sp = 0#8) ∧
      255 < (machine 254 []).pc.toNat + 2 := by decide

end Sys2Proof.Tests
end

section
/-! The state after reset, read through the accessors (10_state.md R36). -/

namespace Sys2Proof.Machine

/-- No cell is listed at reset, and an unlisted cell reads as 0. -/
@[simp] theorem State.reset_cell (a : Nat) : State.reset.cell a = 0#8 := rfl

@[simp] theorem State.reset_sp : State.reset.sp = Config.spReset := rfl

@[simp] theorem State.reset_run : State.reset.run = .running := rfl

/-- Settles O4: each value is what the accessor reads from the reset state; `x[7]` is the stack pointer. -/
theorem resetStatedValues : Obligations.ResetStatedValues :=
  ⟨State.reset_cell, State.reset_sp, State.reset_run⟩

end Sys2Proof.Machine
end

section
/-! Bounds-checked memory access on the exact integer address (20_memory.md R50). -/

namespace Sys2Proof.Machine

/-- A store changes the cell it names and nothing else. -/
theorem State.store_keeps (s : State) (a : Nat) (v : Byte) :
    KeepsAllButRegsCellsAndPc [] [a] s (s.store a v) := by
  refine ⟨fun _ _ => rfl, rfl, rfl, rfl, rfl, ?_⟩
  intro c hc
  have hne : c ≠ a := List.ne_of_not_mem_cons hc
  rw [State.store_cell, if_neg hne]

/-- The state an out-of-bounds access leaves, with the address reduced mod 512. -/
theorem fail_outOfBounds_mem (a : Int) (s : State) :
    s.fail (.outOfBounds .mem a) = s.afterError .outOfBoundsAccess .mem (BitVec.ofInt 9 a) := rfl

/-- Settles O29, by the two cases of the bounds check: a cell's address is a natural number below 256, and the state
a write leaves is the store; outside, both accesses enter the same error. -/
theorem memoryIsBoundsChecked : Obligations.MemoryIsBoundsChecked := by
  intro a v s s1 k k1
  constructor
  · intro h0 h255
    obtain ⟨n, rfl⟩ := Int.eq_ofNat_of_zero_le h0
    have hn : n < 256 := by omega
    exact ⟨memRead_ok hn s k, s1.store n v, memWrite_ok hn v s s1 k1, by simp, s1.store_keeps n v, rfl⟩
  · intro hout
    have h : ¬ (0 ≤ a ∧ a < 256) := by omega
    rw [← fail_outOfBounds_mem]
    exact ⟨memRead_out h s k, memWrite_out h v s s1 k1⟩

end Sys2Proof.Machine
end

section
/-! The engine's fetch (40_engine.md R114 to R117, R123): the error that `FetchCause` names is the one a step takes. -/

namespace Sys2Proof.Machine

/-! ### The opcode byte, as the statements read it -/

/-- The operand count is the slice `opcode[7:6]` (30_encoding.md R80). -/
theorem extractLsb_toNat_eq_operandCount (ir : Byte) : (ir.extractLsb 7 6).toNat = operandCount ir := by
  have hir := ir.isLt
  simp only [BitVec.extractLsb, BitVec.extractLsb'_toNat, Nat.shiftRight_eq_div_pow, operandCount]
  omega

theorem extractLsb_eq_iff_operandCount (ir : Byte) (n : BitVec 2) :
    ir.extractLsb 7 6 = n ↔ operandCount ir = n.toNat := by
  rw [← extractLsb_toNat_eq_operandCount]
  exact BitVec.toNat_inj.symm

/-- The absent opcodes are those outside the 21 keys of 40_engine.md R111. -/
theorem dispatch_eq_none_iff_not_mem_keys (ir : Byte) : dispatch ir = none ↔ ir ∉ Claims.keys := by
  have hkeys : Claims.keys = dispatchTable.map Prod.fst := rfl
  rw [hkeys, ← dispatch_isSome_iff, Option.not_isSome_iff_eq_none]

/-! ### A fetch error decides the step -/

/-- The conditions of different fetch errors exclude each other. -/
theorem FetchCause.unique {s : State} {c d : Cause} (hc : FetchCause s c) (hd : FetchCause s d) : c = d := by
  cases hc with
  | opcodeFetch => cases hd with
    | opcodeFetch => rfl
    | _ => omega
  | countThree => cases hd with
    | countThree => rfl
    | _ => omega
  | operandFetch => cases hd with
    | operandFetch => rfl
    | _ => omega
  | absent => cases hd with
    | absent => rfl
    | _ => omega

/-- Where a fetch raises, no instruction's bytes stand at `pc`. -/
theorem FetchCause.not_fetched {s : State} {c : Cause} (hc : FetchCause s c) (i : Instr) : ¬ Fetched s i := by
  rintro ⟨hmem, hop, -⟩
  cases hc with
  | opcodeFetch => omega
  | countThree _ h3 => exact operandCount_opcodeOf_ne_three i (hop ▸ h3)
  | operandFetch => omega
  | absent _ _ hd =>
    have hnone := (lookupInstr_eq_none (operandCount_opcodeOf i).symm).2 (hop ▸ hd)
    rw [lookupInstr_encode] at hnone
    cases hnone

/-- `step_cases` read backwards: the state after a fetch error, from its condition alone. -/
theorem step_of_fetchCause {s : State} {c : Cause} (hr : s.run = .running) (hc : FetchCause s c) :
    step s = .next (s.fail c) := by
  rcases step_cases hr with ⟨d, hd, hs⟩ | ⟨i, hi, -⟩
  · rw [hs, hc.unique hd]
  · exact absurd hi (hc.not_fetched i)

/-- The state InvalidOpcode leaves, with the opcode byte as nine bits. -/
theorem fail_invalidOpcode (ir : Byte) (s : State) :
    s.fail (.invalidOpcode ir) = s.afterError .invalidOpcode .mem (ir.zeroExtend 9) := rfl

/-! ### The statements -/

/-- Settles O11: in each of the three cases the count is 1 or 2 and the last operand address is past 255, which is
the operand fetch's error, whatever the opcode's entry. -/
theorem operandFetchPastMemory : Obligations.OperandFetchPastMemory := by
  intro s hr hcase
  simp only [extractLsb_eq_iff_operandCount, BitVec.toNat_ofNat, Nat.reducePow, Nat.reduceMod] at hcase
  have hcause : FetchCause s (.outOfBounds .mem 256) := .operandFetch (by omega) (by omega) (by omega)
  rw [step_of_fetchCause hr hcause, fail_outOfBounds_mem]
  rfl

/-- Settles O13: the operand fetch is passed, so the table lookup of an absent opcode decides the step. -/
theorem absentOpcodeIsInvalid : Obligations.AbsentOpcodeIsInvalid := by
  intro s hr hkey hcount hmem
  rw [extractLsb_toNat_eq_operandCount] at hmem
  have hne : operandCount s.opcode ≠ 3 := (extractLsb_eq_iff_operandCount _ 3#2).not.1 hcount
  have habsent := (dispatch_eq_none_iff_not_mem_keys _).2 hkey
  rw [step_of_fetchCause hr (.absent hmem hne habsent), fail_invalidOpcode]

/-- Settles O9, by the two ways a Halted state ends: clean or failed. -/
theorem haltedHasNoSuccessor : Obligations.HaltedHasNoSuccessor := by
  intro s hh
  rw [step_halted hh]
  constructor
  · intro hclean
    rw [if_pos hclean]
  · intro hfailed
    rw [if_neg hfailed]

end Sys2Proof.Machine
end

section
/-! The ALU-class instructions that always give a result, and MOD (41_alu.md sections 2 and 3). What every one of them
does around its result is said once per form; what is left of a statement is the value in the ALU's row. -/

namespace Sys2Proof.Machine

/-! ### Completion and errors of a handler -/

theorem operandCount_of_encode {i : Instr} {sel : Byte} {ops : List Byte} (h : encode i = sel :: ops) :
    operandCount sel = ops.length := by
  obtain ⟨rfl, rfl⟩ := List.cons.inj h
  exact operandCount_opcodeOf i

/-- Writing one register and moving `pc` leaves the rest of the state. -/
theorem State.setReg_advance_keeps (s : State) (r : RegIx) (v : Byte) (n : Nat) :
    KeepsAllButRegsAndPc [r] s ((s.setReg r v).advance n) := by
  refine ⟨?_, rfl, rfl, rfl, rfl, fun _ _ => rfl⟩
  intro j hj
  have hne : j ≠ r := List.ne_of_not_mem_cons hj
  rw [State.advance_reg, State.setReg_reg, if_neg hne]

/-- An ALU result completes the instruction: the register holds it, `pc` passes the operands, the rest stays. -/
theorem aluFinish_result (sel : Byte) (r : RegIx) (s : State) (v : Byte) :
    ∃ t, aluFinish sel r s (.result v) = .next t ∧ t.reg r = v ∧
      t.pc = s.pc + BitVec.ofNat 9 (1 + operandCount sel) ∧ KeepsAllButRegsAndPc [r] s t :=
  ⟨(s.setReg r v).advance (operandCount sel), rfl, by simp, rfl, s.setReg_advance_keeps r v _⟩

theorem fail_outOfBounds_reg (a : Byte) (s : State) :
    s.fail (.outOfBounds .reg a.toNat) = s.afterError .outOfBoundsAccess .reg (a.zeroExtend 9) :=
  fail_reg a s

/-- The state DivisionByZero leaves, with the opcode byte as nine bits. -/
theorem aluFinish_divisionByZero (sel : Byte) (r : RegIx) (s : State) :
    aluFinish sel r s .divisionByZero = .next (s.afterError .divisionByZero .mem (sel.zeroExtend 9)) := rfl

/-! ### The forms of the statements, from the value in the ALU's row -/

theorem oneRegResult_of_alu {mk : Byte → Instr} {sel : Byte} {rel : Byte → Byte → Prop}
    (henc : ∀ a, encode (mk a) = [sel, a]) (hexec : ∀ a s, exec (mk a) s = aluOne sel a s)
    (hval : ∀ x, ∃ v, alu sel x 0#8 = .result v ∧ rel x v) : Claims.OneRegResult mk sel rel := by
  intro a s
  rw [hexec]
  refine ⟨henc a, ?legal, ?illegal⟩
  case legal =>
    intro ra ha
    obtain ⟨v, halu, hrel⟩ := hval (s.reg ra)
    obtain ⟨t, hnext, rfl, hpc, hkeeps⟩ := aluFinish_result sel ra s v
    rw [operandCount_of_encode (henc a)] at hpc
    exact ⟨t, by rw [aluOne_legal ra ha, halu, hnext], hrel, hpc, hkeeps⟩
  case illegal =>
    intro ha
    rw [aluOne_illegal ha, fail_outOfBounds_reg]

/-- The legal form of a two-register handler whose row gives a result on the two values read. -/
theorem aluTwo_result {sel a b v : Byte} {ra rb : RegIx} (ha : a.toNat = ra.val) (hb : b.toNat = rb.val) {s : State}
    (halu : alu sel (s.reg ra) (s.reg rb) = .result v) :
    ∃ t, aluTwo sel a b s = .next t ∧ t.reg ra = v ∧
      t.pc = s.pc + BitVec.ofNat 9 (1 + operandCount sel) ∧ KeepsAllButRegsAndPc [ra] s t := by
  rw [aluTwo_legal ra rb ha hb, halu]
  exact aluFinish_result sel ra s v

/-- The two error clauses of a two-register handler: the first operand is checked first. -/
theorem aluTwo_illegal (sel a b : Byte) (s : State) :
    (7 < a.toNat → aluTwo sel a b s = .next (s.afterError .outOfBoundsAccess .reg (a.zeroExtend 9))) ∧
    (a.toNat ≤ 7 → 7 < b.toNat →
      aluTwo sel a b s = .next (s.afterError .outOfBoundsAccess .reg (b.zeroExtend 9))) := by
  constructor
  · intro ha
    rw [aluTwo_illegal_first ha, fail_outOfBounds_reg]
  · intro ha hb
    rw [aluTwo_illegal_second ha hb, fail_outOfBounds_reg]

theorem twoRegResult_of_alu {mk : Byte → Byte → Instr} {sel : Byte} {rel : Byte → Byte → Byte → Prop}
    (henc : ∀ a b, encode (mk a b) = [sel, a, b]) (hexec : ∀ a b s, exec (mk a b) s = aluTwo sel a b s)
    (hval : ∀ x y, ∃ v, alu sel x y = .result v ∧ rel x y v) : Claims.TwoRegResult mk sel rel := by
  intro a b s
  rw [hexec]
  refine ⟨henc a b, ?_, aluTwo_illegal sel a b s⟩
  intro ra rb ha hb
  obtain ⟨v, halu, hrel⟩ := hval (s.reg ra) (s.reg rb)
  obtain ⟨t, hnext, rfl, hpc, hkeeps⟩ := aluTwo_result ha hb halu
  rw [operandCount_of_encode (henc a b)] at hpc
  exact ⟨t, hnext, hrel, hpc, hkeeps⟩

theorem divisionResult_of_alu {mk : Byte → Byte → Instr} {sel : Byte} {rel : Byte → Byte → Byte → Prop}
    (henc : ∀ a b, encode (mk a b) = [sel, a, b]) (hexec : ∀ a b s, exec (mk a b) s = aluTwo sel a b s)
    (hval : ∀ x y, y ≠ 0#8 → ∃ v, alu sel x y = .result v ∧ rel x y v)
    (hzero : ∀ x, alu sel x 0#8 = .divisionByZero) : Claims.DivisionResult mk sel rel := by
  intro a b s
  rw [hexec]
  refine ⟨henc a b, ?_, aluTwo_illegal sel a b s⟩
  intro ra rb ha hb
  constructor
  · intro hy
    obtain ⟨v, halu, hrel⟩ := hval (s.reg ra) (s.reg rb) hy
    obtain ⟨t, hnext, rfl, hpc, hkeeps⟩ := aluTwo_result ha hb halu
    rw [operandCount_of_encode (henc a b)] at hpc
    exact ⟨t, hnext, hrel, hpc, hkeeps⟩
  · intro hy
    rw [aluTwo_legal ra rb ha hb, hy, hzero, aluFinish_divisionByZero]

/-! ### The values of the rows as numbers -/

theorem mask8_succ_toNat (x : Byte) :
    (mask8 ((x.toNat : Int) + 1)).toNat = if x.toNat = 255 then 0 else x.toNat + 1 := by
  have hmod := mask8_toNat ((x.toNat : Int) + 1)
  have hx := x.isLt
  split <;> omega

theorem mask8_pred_toNat (x : Byte) :
    (mask8 ((x.toNat : Int) - 1)).toNat = if x.toNat = 0 then 255 else x.toNat - 1 := by
  have hmod := mask8_toNat ((x.toNat : Int) - 1)
  have hx := x.isLt
  split <;> omega

/-- A remainder is below 256, so narrowing keeps it. -/
theorem mask8_mod_toNat (x y : Byte) : (mask8 ((x.toNat % y.toNat : Nat) : Int)).toNat = x.toNat % y.toNat := by
  have hle := Nat.mod_le x.toNat y.toNat
  rw [mask8_toNat_natCast, Nat.mod_eq_of_lt (by omega)]

theorem aluMod_of_ne_zero (x : Byte) {y : Byte} (h : y ≠ 0#8) :
    aluMod x y = .result (mask8 ((x.toNat % y.toNat : Nat) : Int)) :=
  if_neg (BitVec.toNat_ne.1 h)

/-! ### The statements -/

/-- Settles O40: the exact sum, narrowed, is the sum of the two bytes as bit vectors. -/
theorem addWrapsModulo256 : Obligations.AddWrapsModulo256 := by
  refine twoRegResult_of_alu (fun _ _ => rfl) exec_add fun x y => ⟨_, alu_add x y, ?_⟩
  rw [mask8_add, BitVec.toNat_add]

/-- Settles O42: the exact product, narrowed, is the product of the two bytes as bit vectors. -/
theorem mulKeepsLowByte : Obligations.MulKeepsLowByte := by
  refine twoRegResult_of_alu (fun _ _ => rfl) exec_mul fun x y => ⟨_, alu_mul x y, ?_⟩
  rw [mask8_mul, BitVec.toNat_mul]

/-- Settles O44: the row gives `x % y`, with the two properties of the remainder of natural numbers. -/
theorem modIsRemainder : Obligations.ModIsRemainder := by
  refine divisionResult_of_alu (fun _ _ => rfl) exec_mod ?value fun _ => rfl
  case value =>
    intro x y hy
    refine ⟨_, aluMod_of_ne_zero x hy, ?_⟩
    rw [mask8_mod_toNat]
    exact ⟨Nat.mod_lt _ (Nat.pos_of_ne_zero (BitVec.toNat_ne.1 hy)), (Nat.div_add_mod' _ _).symm⟩

/-- Settles O45: 256 is the one exact sum that does not fit a byte. -/
theorem incWraps : Obligations.IncWraps :=
  oneRegResult_of_alu (fun _ => rfl) exec_inc fun x => ⟨_, alu_inc x _, mask8_succ_toNat x⟩

/-- Settles O46: -1 is the one exact difference that does not fit a byte. -/
theorem decWraps : Obligations.DecWraps :=
  oneRegResult_of_alu (fun _ => rfl) exec_dec fun x => ⟨_, alu_dec x _, mask8_pred_toNat x⟩

/-- Settles O47: the row is `x &&& y`, read bit by bit. -/
theorem andIsBitwise : Obligations.AndIsBitwise :=
  twoRegResult_of_alu (fun _ _ => rfl) exec_and fun x y => ⟨_, alu_and x y, fun _ _ => BitVec.getLsbD_and⟩

/-- Settles O48: the row is `x ||| y`, read bit by bit. -/
theorem orIsBitwise : Obligations.OrIsBitwise :=
  twoRegResult_of_alu (fun _ _ => rfl) exec_or fun x y => ⟨_, alu_or x y, fun _ _ => BitVec.getLsbD_or⟩

/-- Settles O49: the row is `x ^^^ y`, read bit by bit; exclusive or of two bits says that they differ. -/
theorem xorIsBitwise : Obligations.XorIsBitwise :=
  twoRegResult_of_alu (fun _ _ => rfl) exec_xor fun x y => ⟨_, alu_xor x y, fun _ _ => BitVec.getLsbD_xor⟩

end Sys2Proof.Machine
end

section
/-! PUSH and POP (43_stack_call.md R200, R201, R204). `execPush_ok` and `execPop_legal` give the state each one leaves;
here stand the frame of that state and its stack pointer as a number. -/

namespace Sys2Proof.Machine

/-! ### The two writes of a push and of a pop -/

/-- Moving the stack pointer and storing one byte, as a push does, leaves the rest of the state. -/
theorem State.setSp_store_keeps (s : State) (sp : Byte) (a : Nat) (v : Byte) :
    KeepsAllButRegsCellsAndPc [7] [a] s ((s.setSp sp).store a v) := by
  refine ⟨?_, rfl, rfl, rfl, rfl, ?_⟩
  · intro j hj
    have hne : j ≠ 7 := List.ne_of_not_mem_cons hj
    rw [State.store_reg, State.setSp_reg, if_neg hne]
  · intro c hc
    have hne : c ≠ a := List.ne_of_not_mem_cons hc
    rw [State.store_cell, if_neg hne, State.setSp_cell]

/-- Writing one register and then the stack pointer, as a pop does, leaves the rest of the state. -/
theorem State.setReg_setSp_keeps (s : State) (r : RegIx) (v sp : Byte) :
    KeepsAllButRegsAndPc [r, 7] s ((s.setReg r v).setSp sp) := by
  refine ⟨?_, rfl, rfl, rfl, rfl, fun _ _ => rfl⟩
  intro j hj
  obtain ⟨hr, h7⟩ : j ≠ r ∧ j ≠ 7 := by simpa using hj
  rw [State.setSp_reg, if_neg h7, State.setReg_reg, if_neg hr]

/-- The second write to `x[7]` stands alone: what `POP R7` wrote first is gone. -/
theorem State.setReg_seven_setSp (s : State) (v sp : Byte) : (s.setReg 7 v).setSp sp = s.setReg 7 sp := by
  simp [State.setSp, State.setReg]

theorem pred_toNat_of_ne_zero {x : Byte} (h : x ≠ 0#8) : (x - 1#8).toNat = x.toNat - 1 := by
  bv_omega

theorem succ_toNat_of_ne_255 {x : Byte} (h : x.toNat ≠ 255) : (x + 1#8).toNat = x.toNat + 1 := by
  bv_omega

/-! ### POP by the register it names -/

theorem execPop_ne_seven {a : Byte} {r : RegIx} (ha : a.toNat = r.val) (hr : r ≠ 7) (s : State) :
    execPop a s =
      if s.sp.toNat = 255 then .next (s.fail (.outOfBounds .mem 256))
      else .next (((s.setReg r (s.cell s.sp.toNat)).setSp (s.sp + 1#8)).advance 1) := by
  simp only [execPop_legal r ha, if_neg hr]

theorem execPop_seven {a : Byte} (ha : a.toNat = 7) (s : State) :
    execPop a s =
      if (s.cell s.sp.toNat).toNat = 255 then .next (s.fail (.outOfBounds .mem 256))
      else .next ((s.setReg 7 (s.cell s.sp.toNat + 1#8)).advance 1) := by
  simp only [execPop_legal 7 ha, if_true, State.setReg_seven_setSp]

/-! ### The statements -/

/-- Settles O34: with room below, the state is the decrement, then the store of the register as it then reads, so the
cell and the register agree, R7 included; the two errors are the push's and the operand check's. -/
theorem pushInstruction : Obligations.PushInstruction := by
  intro a s
  rw [exec_push]
  refine ⟨rfl, fun ra ha => ⟨?room, ?full⟩, ?illegal⟩
  case room =>
    intro hsp
    have hsp0 : s.sp.toNat ≠ 0 := BitVec.toNat_ne.1 hsp
    refine ⟨_, execPush_ok ra ha hsp0, ?_, rfl, ?_⟩
    · rw [State.advance_sp, State.store_sp, State.setSp_sp, pred_toNat_of_ne_zero hsp]
    · intro adr hadr
      obtain rfl : adr = s.sp.toNat - 1 := by omega
      exact ⟨by simp, s.setSp_store_keeps _ _ _⟩
  case full =>
    intro hsp
    rw [execPush_zero ra ha (congrArg BitVec.toNat hsp), fail_outOfBounds_mem]
    rfl
  case illegal =>
    intro ha
    rw [execPush, checkReg_illegal ha, fail_outOfBounds_reg]

/-- Settles O35: the new stack pointer is the old one plus one, or the popped byte plus one for `POP R7`; 255 is the
one value whose successor is past memory. -/
theorem popInstruction : Obligations.PopInstruction := by
  intro a s
  rw [exec_pop]
  refine ⟨rfl, fun ra ha hra => ?other, fun ha => ?seven, ?illegal⟩
  case other =>
    rw [execPop_ne_seven ha hra]
    constructor
    · intro hsp
      rw [if_neg hsp]
      refine ⟨_, rfl, ?_, ?_, rfl, s.setReg_setSp_keeps ra _ _⟩
      · simp [hra]
      · rw [State.advance_sp, State.setSp_sp, succ_toNat_of_ne_255 hsp]
    · intro hsp
      rw [if_pos hsp, fail_outOfBounds_mem]
      rfl
  case seven =>
    rw [execPop_seven ha]
    constructor
    · intro hv
      rw [if_neg hv]
      refine ⟨_, rfl, ?_, rfl, s.setReg_advance_keeps 7 _ _⟩
      rw [State.advance_sp, State.setReg_sp, if_pos rfl, succ_toNat_of_ne_255 hv]
    · intro hv
      rw [if_pos hv, fail_outOfBounds_mem]
      rfl
  case illegal =>
    intro ha
    rw [execPop, checkReg_illegal ha, fail_outOfBounds_reg]

end Sys2Proof.Machine
end

section
/-! Error entry and the two ways a run ends (60_exceptions.md R230 to R238): the errors a step can raise, and the one
instruction that halts without one. -/

namespace Sys2Proof.Machine

/-! ### DivisionByZero -/

/-- The zero divisor of a two-register handler: error entry with the operation select as the record's value. -/
theorem aluTwo_divisionByZero {sel a b : Byte} {ra rb : RegIx} (ha : a.toNat = ra.val) (hb : b.toNat = rb.val)
    {s : State} (halu : alu sel (s.reg ra) (s.reg rb) = .divisionByZero) :
    aluTwo sel a b s = .next (s.afterError .divisionByZero .mem (sel.zeroExtend 9)) := by
  rw [aluTwo_legal ra rb ha hb, halu, aluFinish_divisionByZero]

/-- Settles O17: both rows of the ALU answer DivisionByZero where the second value is 0. -/
theorem divisionByZeroInFull : Obligations.DivisionByZeroInFull := by
  intro a b ra rb s ha hb hzero
  constructor
  · rw [exec_div]
    exact aluTwo_divisionByZero ha hb (by rw [hzero]; rfl)
  · rw [exec_mod]
    exact aluTwo_divisionByZero ha hb (by rw [hzero]; rfl)

/-! ### The kinds of error a step raises -/

theorem FetchCause.kind {s : State} {c : Cause} (hc : FetchCause s c) :
    (errRecord c).kind = .invalidOpcode ∨ (errRecord c).kind = .outOfBoundsAccess := by
  cases hc with
  | opcodeFetch => exact .inr rfl
  | countThree => exact .inl rfl
  | operandFetch => exact .inr rfl
  | absent => exact .inl rfl

theorem HandlerCause.kind {i : Instr} {s : State} {c : Cause} (hc : HandlerCause i s c) :
    (errRecord c).kind = .divisionByZero ∨ (errRecord c).kind = .outOfBoundsAccess := by
  rcases hc with ⟨a, -, -, rfl⟩ | ⟨-, rfl⟩ | ⟨-, -, rfl⟩ | ⟨-, rfl⟩ | ⟨-, rfl⟩
  case inr.inl => exact .inl rfl
  all_goals exact .inr rfl

/-- `step_next_cases` by what stands in `err` afterwards: an error of kind 1, 2 or 3, or a completed instruction. -/
theorem step_next_fail_or_completed {s t : State} (h : step s = .next t) :
    (∃ c, ((errRecord c).kind = .invalidOpcode ∨ (errRecord c).kind = .divisionByZero ∨
        (errRecord c).kind = .outOfBoundsAccess) ∧ t = s.fail c) ∨
      ∃ i, Fetched s i ∧ Completed i s t := by
  rcases step_next_cases h with ⟨c, hc, ht⟩ | ⟨i, hi, ⟨c, hc, ht⟩ | ht⟩
  · exact .inl ⟨c, hc.kind.imp_right .inr, ht⟩
  · exact .inl ⟨c, .inr hc.kind, ht⟩
  · exact .inr ⟨i, hi, ht⟩

/-! ### The two ways to stop -/

/-- A Running engine has a step: both the fetch and the handler answer with a next state, error or not. -/
theorem exists_step_of_running {s : State} (h : s.run = .running) : ∃ t, step s = .next t := by
  rcases step_cases h with ⟨c, -, hs⟩ | ⟨i, -, hs⟩
  · exact ⟨_, hs⟩
  · rcases exec_answers i s with ⟨c, -, he⟩ | ⟨t, -, he⟩
    · exact ⟨_, hs.trans he⟩
    · exact ⟨t, hs.trans he⟩

/-- HLT is the only instruction whose completion halts. -/
theorem Completed.eq_hlt_of_halted {i : Instr} {s t : State} (ht : Completed i s t) (hr : s.run = .running)
    (hh : t.run = .halted) : i = .hlt := by
  by_contra hne
  have hrun := ht.run
  rw [if_neg hne, hr, hh] at hrun
  cases hrun

/-- HLT advances `pc` by one; its opcode stands in memory, so the sum does not wrap (40_engine.md R121). -/
theorem Completed.hlt_pc {s t : State} (ht : Completed .hlt s t) (hf : Fetched s .hlt) :
    t.pc.toNat = s.pc.toNat + 1 := by
  obtain ⟨hmem, -, -⟩ := hf
  have hpc : t.pc = s.pc + 1#9 := ht.pcAdvance rfl
  bv_omega

/-- Settles O19, by the two outcomes of a step: an error, which halts at the same `pc` with its kind recorded, or a
completed instruction, which records nothing and halts only if it is HLT. -/
theorem twoWaysToStop : Obligations.TwoWaysToStop := by
  intro s hr hnone
  refine ⟨exists_step_of_running hr, fun t hstep => ?_⟩
  rcases step_next_fail_or_completed hstep with ⟨c, hkind, rfl⟩ | ⟨i, hf, ht⟩
  · exact ⟨fun _ => .inr ⟨hkind, rfl⟩, fun _ => rfl⟩
  · have herr : t.err.kind = .none := by rw [ht.err, hnone]
    constructor
    · intro hh
      obtain rfl := ht.eq_hlt_of_halted hr hh
      have hpc := ht.hlt_pc hf
      obtain ⟨-, hop, -⟩ := hf
      exact .inl ⟨herr, hop, hpc⟩
    · exact fun hne => absurd herr hne

end Sys2Proof.Machine
end

section
/-! The decoder is the inverse of the encoder (30_encoding.md sections 1 to 4), and which bytes it refuses. -/

namespace Sys2Proof.Machine

/-! ### Decode and encode -/

/-- An instruction's bytes, whatever follows them, decode to it and leave the rest over. -/
theorem decode_encode_append (i : Instr) (rest : List Byte) : decode (encode i ++ rest) = .ok (i, rest) := by
  have hlen : ¬ (operandsOf i ++ rest).length < (operandsOf i).length := by simp
  rw [encode, List.cons_append, decode_cons, if_neg (operandCount_opcodeOf_ne_three i), operandCount_opcodeOf,
    if_neg hlen, List.take_left, List.drop_left, lookupInstr_encode]

/-- What the decoder accepts begins with the encoding of the instruction it answers: the lookup answers an instruction
only for that instruction's opcode and operand bytes. -/
theorem eq_encode_append_of_decode {bytes rest : List Byte} {i : Instr} (h : decode bytes = .ok (i, rest)) :
    bytes = encode i ++ rest := by
  cases bytes with
  | nil => cases h
  | cons ir tail =>
    rw [decode_cons] at h
    split at h
    · cases h
    split at h
    · cases h
    split at h
    · cases h
    · next j hlookup =>
      obtain ⟨rfl, rfl⟩ := Prod.mk.inj (Except.ok.inj h)
      obtain ⟨hir, hops⟩ := lookupInstr_eq_some hlookup
      rw [encode, ← hops, ← hir, List.cons_append, List.take_append_drop]

/-- Settles O2, by the two directions above. -/
theorem decodeIffEncode : Obligations.DecodeIffEncode := by
  intro bytes rest i
  constructor
  · exact eq_encode_append_of_decode
  · rintro rfl
    exact decode_encode_append i rest

/-- Settles O1: each word is the encoding of its instruction. -/
theorem opcodeWordsDecode : Obligations.OpcodeWordsDecode := fun rest =>
  ⟨decode_encode_append .hlt rest, decode_encode_append (.call 0x01#8) rest,
    decode_encode_append (.ldi 0x00#8 0x08#8) rest, decode_encode_append (.not 0x07#8) rest,
    decode_encode_append (.cmp 0x02#8 0x10#8) rest⟩

/-! ### Refused opcodes -/

theorem decode_countThree {ir : Byte} (h : operandCount ir = 3) (rest : List Byte) :
    decode (ir :: rest) = .error (.invalidOpcode ir) := by
  rw [decode_cons, if_pos h]

/-- An opcode absent from the Dispatch Table, with the operand bytes its count asks for. -/
theorem decode_absent {ir : Byte} {rest : List Byte} (h3 : operandCount ir ≠ 3) (hd : dispatch ir = none)
    (hlen : operandCount ir ≤ rest.length) : decode (ir :: rest) = .error (.invalidOpcode ir) := by
  have hnone := (lookupInstr_eq_none (List.length_take_of_le hlen)).2 hd
  rw [decode_cons, if_neg h3, if_neg (Nat.not_lt.2 hlen), hnone]

/-- Settles O3: a count of 3 is refused at once, any other absent opcode at the table lookup. -/
theorem illegalOpcodesAreRefused : Obligations.IllegalOpcodesAreRefused := by
  intro ir rest hkey hcount
  rw [extractLsb_eq_iff_operandCount, extractLsb_toNat_eq_operandCount] at hcount
  by_cases h3 : operandCount ir = 3
  · exact decode_countThree h3 rest
  · have hlen := hcount.resolve_left h3
    exact decode_absent h3 ((dispatch_eq_none_iff_not_mem_keys ir).2 hkey) hlen

end Sys2Proof.Machine
end

section
/-! The step at a Running state, from what stands in memory at `pc` (40_engine.md R114 to R118): the decoder's answer on
those bytes, or the error of the fetch. -/

namespace Sys2Proof.Machine

/-! ### The instruction at `pc` -/

/-- The bytes at `pc` are those of one instruction at most. -/
theorem Fetched.unique {s : State} {i j : Instr} (hi : Fetched s i) (hj : Fetched s j) : i = j := by
  obtain ⟨-, hopi, hopsi⟩ := hi
  obtain ⟨-, hopj, hopsj⟩ := hj
  have hops : operandsOf i = operandsOf j := hopsi.symm.trans hopsj
  have h := lookupInstr_encode i
  rw [← hopi, hopj, hops, lookupInstr_encode] at h
  exact (Option.some.inj h).symm

/-- `step_cases` read backwards: the step from the instruction that stands at `pc`. -/
theorem step_of_fetched {s : State} {i : Instr} (hr : s.run = .running) (hi : Fetched s i) : step s = exec i s := by
  rcases step_cases hr with ⟨c, hc, -⟩ | ⟨j, hj, hs⟩
  · exact absurd hi (hc.not_fetched i)
  · rw [hs, hj.unique hi]

/-- The decoder on the bytes from `pc` to 255 reads the instruction the engine fetches. -/
theorem fetched_of_decode {s : State} {i : Instr} {rest : List Byte} (h : decode (codeBytes s) = .ok (i, rest)) :
    Fetched s i := by
  have hcode : codeBytes s = opcodeOf i :: (operandsOf i ++ rest) := eq_encode_append_of_decode h
  have hlen : (codeBytes s).length = (operandsOf i ++ rest).length + 1 := by rw [hcode, List.length_cons]
  rw [codeBytes_length, List.length_append] at hlen
  have hcell : ∀ j (hj : j < (codeBytes s).length), s.cell (s.pc.toNat + j) = (codeBytes s)[j] :=
    fun _ hj => (codeBytes_getElem hj).symm
  simp only [hcode] at hcell
  have hop : s.opcode = opcodeOf i := hcell 0 (by simp)
  have hcount : operandCount s.opcode = (operandsOf i).length := by rw [hop, operandCount_opcodeOf]
  refine ⟨by omega, hop, List.ext_getElem (by simpa using hcount) fun j _ hj => ?_⟩
  have hbyte := hcell (j + 1) (by simp; omega)
  rw [List.getElem_cons_succ, List.getElem_append_left hj] at hbyte
  rw [List.getElem_map, List.getElem_range, ← hbyte]
  congr 1
  omega

/-- Settles O8: the decoded instruction is the fetched one. -/
theorem stepRunsTheDecodedInstruction : Obligations.StepRunsTheDecodedInstruction :=
  fun _ _ _ hr hdecode => step_of_fetched hr (fetched_of_decode hdecode)

/-! ### Errors of the opcode byte -/

/-- Settles O10: `pc` itself is the address out of bounds, and nine bits hold it. -/
theorem opcodeFetchPastMemory : Obligations.OpcodeFetchPastMemory := by
  intro s hr hpc
  have hval : BitVec.ofInt 9 (s.pc.toNat : Int) = s.pc := mask9_word s.pc
  rw [step_of_fetchCause hr (.opcodeFetch hpc), fail_outOfBounds_mem, hval]

/-- Settles O12: the count is looked at before any operand is fetched. -/
theorem countThreeIsInvalidAnywhere : Obligations.CountThreeIsInvalidAnywhere := by
  intro s hr hpc hcount
  have h3 : operandCount s.opcode = 3 := (extractLsb_eq_iff_operandCount _ 3#2).1 hcount
  rw [step_of_fetchCause hr (.countThree hpc h3), fail_invalidOpcode]

end Sys2Proof.Machine
end

section
/-! Reset and loading (10_state.md R36, R37; 70_reset_and_hazards.md R270, R272). Loading is `placeBytes` where the
program fits, so its facts are proved of `placeBytes`. -/

namespace Sys2Proof.Machine

/-! ### The reset state -/

/-- Settles O5: each value is what the accessor reads from the reset state. -/
theorem resetDecidedValues : Obligations.ResetDecidedValues :=
  ⟨by decide, rfl, rfl, rfl, rfl⟩

/-- Settles O6: no cell is listed, `pc` is 0 and no error is recorded. -/
theorem resetMeetsTheInvariant : Obligations.ResetMeetsTheInvariant where
  memory := reset_memory_wf
  counter := Nat.zero_le 256
  record := ⟨rfl, rfl⟩
  running := fun _ => rfl

/-! ### Bytes at ascending addresses -/

/-- Placing bytes writes memory and nothing else. -/
theorem placeBytes_eq (s : State) (a : Nat) (bs : List Byte) :
    placeBytes s a bs = { s with mem := (placeBytes s a bs).mem } := by
  induction bs generalizing s a with
  | nil => rfl
  | cons b bs ih =>
    rw [placeBytes]
    split
    · exact ih (s.store a b) (a + 1)
    · exact ih s (a + 1)

theorem placeBytes_cons {a : Nat} (h : a < 256) (s : State) (b : Byte) (bs : List Byte) :
    placeBytes s a (b :: bs) = placeBytes (s.store a b) (a + 1) bs := by
  rw [placeBytes, if_pos h]

/-- A cell below the first address or past the last byte reads as before. -/
theorem placeBytes_cell_outside (s : State) {a c : Nat} (bs : List Byte) (hfit : a + bs.length ≤ 256)
    (hc : c < a ∨ a + bs.length ≤ c) : (placeBytes s a bs).cell c = s.cell c := by
  induction bs generalizing s a with
  | nil => rfl
  | cons b bs ih =>
    rw [List.length_cons] at hfit hc
    rw [placeBytes_cons (by omega), ih _ (by omega) (by omega), State.store_cell, if_neg (by omega)]

/-- Byte `k` stands `k` cells above the first address. -/
theorem placeBytes_cell (s : State) {a k : Nat} (bs : List Byte) (hfit : a + bs.length ≤ 256) (hk : k < bs.length) :
    (placeBytes s a bs).cell (a + k) = bs[k] := by
  induction bs generalizing s a k with
  | nil => cases hk
  | cons b bs ih =>
    rw [List.length_cons] at hfit
    rw [placeBytes_cons (by omega)]
    cases k with
    | zero =>
      rw [placeBytes_cell_outside _ bs (by omega) (by omega), State.store_cell, if_pos (Nat.add_zero a),
        List.getElem_cons_zero]
    | succ k =>
      have hrec := ih (s.store a b) (a := a + 1) (k := k) (by omega) (Nat.lt_of_succ_lt_succ hk)
      rw [List.getElem_cons_succ, ← hrec]
      congr 1
      omega

/-! ### The loader -/

/-- A program that fits is placed. -/
theorem loadFrom_eq_placeBytes (s : State) {a : Nat} (p : List Byte) (hfit : a + p.length ≤ 256) :
    loadFrom a p s = some (placeBytes s a p) := by
  induction p generalizing s a with
  | nil => rfl
  | cons v vs ih =>
    rw [List.length_cons] at hfit
    have ha : a < Config.memSize := by show a < 256; omega
    rw [loadFrom, loadCell, if_pos ha, placeBytes_cons ha]
    exact ih (s.store a v) (by omega)

/-- A program that runs past address 255 is not loaded: the value for address 256 is refused. -/
theorem loadFrom_eq_none (s : State) {a : Nat} (p : List Byte) (ha : a ≤ 256) (hlong : 256 < a + p.length) :
    loadFrom a p s = none := by
  induction p generalizing s a with
  | nil => rw [List.length_nil] at hlong; omega
  | cons v vs ih =>
    rw [List.length_cons] at hlong
    by_cases h : a < Config.memSize
    · rw [loadFrom, loadCell, if_pos h]
      exact ih (s.store a v) h (by omega)
    · rw [loadFrom, loadCell, if_neg h]

/-- Settles O7: the loaded state is the program placed from address 0 over the reset state, whose cells are 0. -/
theorem loadedProgramStandsFromZero : Obligations.LoadedProgramStandsFromZero := by
  intro p
  constructor
  · intro hlen
    have hfit : 0 + p.length ≤ 256 := by omega
    refine ⟨placeBytes State.reset 0 p, loadFrom_eq_placeBytes _ p hfit, ?value, ?zero, placeBytes_eq _ 0 p,
      placeBytes_wf 0 p reset_memory_wf⟩
    case value =>
      intro k hk
      rw [← placeBytes_cell State.reset p hfit hk, Nat.zero_add]
    case zero =>
      intro k hk
      rw [placeBytes_cell_outside _ p hfit (by omega), State.reset_cell]
  · intro hlong
    exact loadFrom_eq_none _ p (Nat.zero_le 256) (by rwa [Config.loadBase, Nat.zero_add])

end Sys2Proof.Machine
end

section
/-! What a handler checks and what it writes: the operand check that comes first (60_exceptions.md section 2), and the
registers of 10_state.md R24. -/

namespace Sys2Proof.Machine

/-! ### The register check comes first -/

/-- A handler that begins with the check of its one register operand reports that byte when it is illegal. -/
theorem checkReg_of_find {a v : Byte} (h : [a].find? (fun x => decide (7 < x.toNat)) = some v) (s : State)
    (k : RegIx → Answer) : checkReg a s k = .next (s.afterError .outOfBoundsAccess .reg (v.zeroExtend 9)) := by
  obtain rfl : a = v := List.mem_singleton.1 (List.mem_of_find?_eq_some h) |>.symm
  rw [checkReg_illegal (by simpa using List.find?_some h), fail_outOfBounds_reg]

/-- A handler that begins with the check of its two register operands reports the first illegal byte. -/
theorem checkRegs_of_find {a b v : Byte} (h : [a, b].find? (fun x => decide (7 < x.toNat)) = some v) (s : State)
    (k : RegIx → RegIx → Answer) :
    checkRegs a b s k = .next (s.afterError .outOfBoundsAccess .reg (v.zeroExtend 9)) := by
  rw [List.find?_cons] at h
  by_cases ha : 7 < a.toNat
  · simp only [ha, decide_true, Option.some.injEq] at h
    rw [checkRegs, checkReg_illegal ha, h, fail_outOfBounds_reg]
  · simp only [ha, decide_false] at h
    rw [checkRegs, checkReg_legal ⟨a.toNat, by omega⟩ rfl, checkReg_of_find h]

theorem aluOne_of_find {sel a v : Byte} (h : [a].find? (fun x => decide (7 < x.toNat)) = some v) (s : State) :
    aluOne sel a s = .next (s.afterError .outOfBoundsAccess .reg (v.zeroExtend 9)) :=
  checkReg_of_find h s _

theorem aluTwo_of_find {sel a b v : Byte} (h : [a, b].find? (fun x => decide (7 < x.toNat)) = some v) (s : State) :
    aluTwo sel a b s = .next (s.afterError .outOfBoundsAccess .reg (v.zeroExtend 9)) :=
  checkRegs_of_find h s _

/-- Settles O16: every handler with register operands begins with their check, in order. -/
theorem registerIndexIsChecked : Obligations.RegisterIndexIsChecked := by
  intro i s v h
  cases i with
  | hlt | ret => cases h
  | push | pop | prn | call | ldi =>
    rw [exec]
    exact checkReg_of_find h s _
  | inc | dec | not => exact aluOne_of_find h s
  | add | sub | mul | div | mod | cmp | and | or | xor | shl | shr => exact aluTwo_of_find h s

/-! ### The registers an instruction writes -/

/-- A check writes no register: what a checked handler leaves alone is what its continuation does. -/
theorem checkReg_keeps_reg {a : Byte} {s t : State} {k : RegIx → Answer} {j : RegIx} (h : checkReg a s k = .next t)
    (hk : ∀ r : RegIx, a.toNat = r.val → k r = .next t → t.reg j = s.reg j) : t.reg j = s.reg j := by
  rcases checkReg_cases a s k with ⟨r, hr, he⟩ | ⟨-, he⟩ <;> rw [he] at h
  · exact hk r hr h
  · cases h
    rfl

theorem checkRegs_keeps_reg {a b : Byte} {s t : State} {k : RegIx → RegIx → Answer} {j : RegIx}
    (h : checkRegs a b s k = .next t)
    (hk : ∀ ra rb : RegIx, a.toNat = ra.val → k ra rb = .next t → t.reg j = s.reg j) : t.reg j = s.reg j :=
  checkReg_keeps_reg h fun ra ha hra => checkReg_keeps_reg hra fun rb _ hrb => hk ra rb ha hrb

/-- An ALU-class handler's last part writes the first operand's register at most. -/
theorem aluFinish_keeps_reg {sel : Byte} {r j : RegIx} {s t : State} {o : AluOut} (h : aluFinish sel r s o = .next t)
    (hj : r ≠ j) : t.reg j = s.reg j := by
  rcases aluFinish_cases sel r s o with ⟨v, -, he⟩ | ⟨c, -, he⟩ | ⟨-, he⟩ | ⟨-, he⟩ <;> rw [he] at h <;> cases h
  · simp [hj.symm]
  all_goals rfl

theorem aluOne_keeps_reg {sel a : Byte} {j : RegIx} {s t : State} (h : aluOne sel a s = .next t)
    (hj : a.toNat ≠ j.val) : t.reg j = s.reg j :=
  checkReg_keeps_reg h fun _ ha hr => aluFinish_keeps_reg hr fun hrj => hj (hrj ▸ ha)

theorem aluTwo_keeps_reg {sel a b : Byte} {j : RegIx} {s t : State} (h : aluTwo sel a b s = .next t)
    (hj : a.toNat ≠ j.val) : t.reg j = s.reg j :=
  checkRegs_keeps_reg h fun _ _ ha hr => aluFinish_keeps_reg hr fun hrj => hj (hrj ▸ ha)

/-- CMP's row gives a comparison, which is written to `fl`. -/
theorem aluTwo_cmp_keeps_reg {a b : Byte} {s t : State} (h : aluTwo opcCmp a b s = .next t) (j : RegIx) :
    t.reg j = s.reg j :=
  checkRegs_keeps_reg h fun _ _ _ hr => by
    cases hr
    rfl

theorem execLdi_keeps_reg {a imm : Byte} {j : RegIx} {s t : State} (h : execLdi a imm s = .next t)
    (hj : a.toNat ≠ j.val) : t.reg j = s.reg j := by
  refine checkReg_keeps_reg h fun r ha hr => ?_
  have hne : j ≠ r := fun hjr => hj (hjr ▸ ha)
  cases hr
  simp [hne]

theorem execPrn_keeps_reg {a : Byte} {s t : State} (h : execPrn a s = .next t) (j : RegIx) : t.reg j = s.reg j :=
  checkReg_keeps_reg h fun _ _ hr => by
    cases hr
    rfl

/-- A push writes `x[7]` at most, when what follows it writes no register. -/
theorem pushByte_keeps_reg {val : State → Byte} {s t : State} {k : State → Answer} {j : RegIx}
    (h : pushByte val s k = .next t) (hk : ∀ u, k u = .next t → t.reg j = u.reg j) (hj : j ≠ 7) :
    t.reg j = s.reg j := by
  by_cases hsp : s.sp.toNat = 0
  · rw [pushByte_zero hsp] at h
    cases h
    rfl
  · rw [pushByte_ok hsp] at h
    rw [hk _ h, State.store_reg, State.setSp_reg, if_neg hj]

theorem execPush_keeps_reg {a : Byte} {j : RegIx} {s t : State} (h : execPush a s = .next t) (hj : j ≠ 7) :
    t.reg j = s.reg j :=
  checkReg_keeps_reg h fun _ _ hr => pushByte_keeps_reg hr (fun u hu => by cases hu; rfl) hj

theorem execCall_keeps_reg {a : Byte} {j : RegIx} {s t : State} (h : execCall a s = .next t) (hj : j ≠ 7) :
    t.reg j = s.reg j := by
  refine checkReg_keeps_reg h fun r _ hr => ?_
  dsimp only at hr
  split at hr
  · cases hr
    rfl
  · exact pushByte_keeps_reg hr (fun u hu => by cases hu; rfl) hj

theorem execPop_keeps_reg {a : Byte} {j : RegIx} {s t : State} (h : execPop a s = .next t) (hj : j ≠ 7)
    (ha : a.toNat ≠ j.val) : t.reg j = s.reg j := by
  refine checkReg_keeps_reg h fun r hr _ => ?_
  have hne : j ≠ r := fun hjr => ha (hjr ▸ hr)
  rw [execPop_legal r hr] at h
  generalize (if r = 7 then s.cell s.sp.toNat else s.sp) = sp at h
  split at h <;> cases h
  · rfl
  · simp [hj, hne]

theorem execRet_keeps_reg {j : RegIx} {s t : State} (h : execRet s = .next t) (hj : j ≠ 7) : t.reg j = s.reg j := by
  rw [execRet_eq] at h
  split at h <;> cases h
  · rfl
  · simp [hj]

/-- Settles O28, by the row of 10_state.md R24 for each instruction. -/
theorem registersWrittenAsListed : Obligations.RegistersWrittenAsListed := by
  intro i s t h j hj
  cases i with
  | hlt => cases h; rfl
  | ret => exact execRet_keeps_reg h hj
  | push => exact execPush_keeps_reg h hj
  | pop =>
    obtain ⟨h7, ha⟩ := not_or.1 hj
    exact execPop_keeps_reg h h7 ha
  | prn => exact execPrn_keeps_reg h j
  | call => exact execCall_keeps_reg h hj
  | ldi => exact execLdi_keeps_reg h hj
  | cmp => exact aluTwo_cmp_keeps_reg h j
  | inc | dec | not => exact aluOne_keeps_reg h hj
  | add | sub | mul | div | mod | and | or | xor | shl | shr => exact aluTwo_keeps_reg h hj

end Sys2Proof.Machine
end

section
/-! LDI, PRN and HLT (42_data_io_halt.md R180 to R182). -/

namespace Sys2Proof.Machine

/-- Settles O31: LDI writes the register its first byte names. -/
theorem loadImmediate : Obligations.LoadImmediate := by
  intro a imm s
  rw [exec_ldi, execLdi]
  refine ⟨rfl, fun ra ha => ?legal, fun ha => ?illegal⟩
  case legal =>
    rw [checkReg_legal ra ha]
    exact ⟨_, rfl, by simp, rfl, s.setReg_advance_keeps ra imm _⟩
  case illegal =>
    rw [checkReg_illegal ha, fail_outOfBounds_reg]

/-- Settles O32: PRN reads one register and appends its value. -/
theorem printRegister : Obligations.PrintRegister := by
  intro a s
  rw [exec_prn, execPrn]
  refine ⟨rfl, fun ra ha => ?legal, fun ha => ?illegal⟩
  case legal =>
    rw [checkReg_legal ra ha]
    rfl
  case illegal =>
    rw [checkReg_illegal ha, fail_outOfBounds_reg]

/-- Settles O33: HLT has no operand and no error. -/
theorem haltInstruction : Obligations.HaltInstruction :=
  fun s => ⟨rfl, exec_hlt s⟩

end Sys2Proof.Machine
end

section
/-! The ALU-class instructions whose result rests on a decision of the spec: SUB, DIV, NOT, SHL, SHR and CMP, and the
selects the ALU does not know (41_alu.md). -/

namespace Sys2Proof.Machine

/-! ### The values of the rows as numbers -/

/-- A quotient of bytes is a byte, so narrowing keeps it. -/
theorem mask8_div_toNat (x : Byte) (n : Nat) : (mask8 ((x.toNat / n : Nat) : Int)).toNat = x.toNat / n := by
  have hle := Nat.div_le_self x.toNat n
  rw [mask8_toNat_natCast, Nat.mod_eq_of_lt (by omega)]

theorem aluDiv_of_ne_zero (x : Byte) {y : Byte} (h : y ≠ 0#8) :
    aluDiv x y = .result (mask8 ((x.toNat / y.toNat : Nat) : Int)) :=
  if_neg (BitVec.toNat_ne.1 h)

/-- Shifted left by 8 or more, a value is a multiple of 256. -/
theorem mul_two_pow_mod_of_ge {n : Nat} (x : Nat) (h : 8 ≤ n) : x * 2 ^ n % 256 = 0 :=
  Nat.mod_eq_zero_of_dvd (Dvd.dvd.mul_left (pow_dvd_pow 2 h) x)

/-- Shifted right by 8 or more, a byte has no bit left. -/
theorem byte_div_two_pow_of_ge {n : Nat} (x : Byte) (h : 8 ≤ n) : x.toNat / 2 ^ n = 0 :=
  Nat.div_eq_of_lt (x.isLt.trans_le (Nat.pow_le_pow_right Nat.two_pos h))

/-! ### The statements on results -/

/-- Settles O41: narrowing is the remainder modulo 256, of a negative difference too. -/
theorem subWrapsModulo256 : Obligations.SubWrapsModulo256 :=
  twoRegResult_of_alu (fun _ _ => rfl) exec_sub fun x y => ⟨_, alu_sub x y, mask8_toNat _⟩

/-- Settles O43: the row gives `x / y`, between the two multiples of the divisor that characterise the floor. -/
theorem divIsFloorQuotient : Obligations.DivIsFloorQuotient := by
  refine divisionResult_of_alu (fun _ _ => rfl) exec_div ?value fun _ => rfl
  case value =>
    intro x y hy
    have hpos : 0 < y.toNat := Nat.pos_of_ne_zero (BitVec.toNat_ne.1 hy)
    refine ⟨_, aluDiv_of_ne_zero x hy, ?_⟩
    rw [mask8_div_toNat]
    exact ⟨Nat.div_mul_le_self _ _, (Nat.div_lt_iff_lt_mul hpos).1 (Nat.lt_succ_self _)⟩

/-- Settles O50: 255 minus the value is its complement, bit by bit. -/
theorem notInvertsInPlace : Obligations.NotInvertsInPlace := by
  refine oneRegResult_of_alu (fun _ => rfl) exec_not fun x => ⟨_, alu_not x _, ?_⟩
  rw [mask8_complement]
  refine ⟨BitVec.toNat_not, fun n hn => ?_⟩
  rw [BitVec.getLsbD_not, decide_eq_true hn, Bool.true_and]

/-- Settles O51: the product with the power of two, narrowed. -/
theorem shlByFullAmount : Obligations.ShlByFullAmount := by
  refine twoRegResult_of_alu (fun _ _ => rfl) exec_shl fun x y => ⟨_, alu_shl x y, mask8_toNat_natCast _, fun hy => ?_⟩
  apply BitVec.eq_of_toNat_eq
  rw [mask8_toNat_natCast, mul_two_pow_mod_of_ge _ hy]
  rfl

/-- Settles O52: the quotient by the power of two. -/
theorem shrIsLogical : Obligations.ShrIsLogical := by
  refine twoRegResult_of_alu (fun _ _ => rfl) exec_shr fun x y => ⟨_, alu_shr x y, mask8_div_toNat x _, fun hy => ?_⟩
  apply BitVec.eq_of_toNat_eq
  rw [mask8_div_toNat, byte_div_two_pow_of_ge x hy]
  rfl

/-! ### CMP -/

theorem compareFl_eq_less_iff (x y : Byte) : compareFl x y = .less ↔ x.toNat < y.toNat := by
  unfold compareFl
  split_ifs with hlt heq
  · simp [hlt]
  · simp [hlt]
  · simp [hlt]

theorem compareFl_eq_equal_iff (x y : Byte) : compareFl x y = .equal ↔ x.toNat = y.toNat := by
  unfold compareFl
  split_ifs with hlt heq
  · simp [hlt.ne]
  · simp [heq]
  · simp [heq]

theorem compareFl_eq_greater_iff (x y : Byte) : compareFl x y = .greater ↔ y.toNat < x.toNat := by
  unfold compareFl
  split_ifs with hlt heq
  · simp [hlt.le]
  · simp [heq]
  · simp; omega

/-- Settles O53: CMP completes with the comparison in `fl`; the errors are those of every two-register handler. -/
theorem compareSetsFl : Obligations.CompareSetsFl := by
  intro a b s
  rw [exec_cmp]
  refine ⟨rfl, fun ra rb ha hb => ?_, aluTwo_illegal opcCmp a b s⟩
  rw [aluTwo_legal ra rb ha hb, alu_cmp, aluCmp]
  exact ⟨_, rfl, rfl, compareFl_eq_less_iff _ _, compareFl_eq_equal_iff _ _, compareFl_eq_greater_iff _ _⟩

/-! ### Other selects -/

/-- Settles O21: the listed selects are the keys of the ALU's table. -/
theorem aluRefusesOtherSelects : Obligations.AluRefusesOtherSelects := by
  intro sel a b hsel
  have hnone : aluTable.lookup sel = none := lookup_none aluTable hsel
  rw [alu, hnone]

end Sys2Proof.Machine
end

section
/-! CALL and RET, and what a push and a pop do together (43_stack_call.md R200 to R206). -/

namespace Sys2Proof.Machine

theorem execCall_illegal {a : Byte} (h : 7 < a.toNat) (s : State) :
    execCall a s = .next (s.afterError .outOfBoundsAccess .reg (a.zeroExtend 9)) := by
  rw [execCall, checkReg_illegal h, fail_outOfBounds_reg]

/-- RET with a byte left to pop. -/
theorem execRet_ok {s : State} (h : s.sp.toNat ≠ 255) :
    execRet s = .next ((s.setSp (s.sp + 1#8)).jump (zext9 (s.cell s.sp.toNat))) := by
  rw [execRet_eq, if_neg h]

theorem execRet_top {s : State} (h : s.sp.toNat = 255) :
    execRet s = .next (s.fail (.outOfBounds .mem 256)) := by
  rw [execRet_eq, if_pos h]

/-- Moving the stack pointer, as RET does, leaves the rest of the state. -/
theorem State.setSp_keeps (s : State) (sp : Byte) : KeepsAllButRegsAndPc [7] s (s.setSp sp) := by
  refine ⟨fun j hj => ?_, rfl, rfl, rfl, rfl, fun _ _ => rfl⟩
  rw [State.setSp_reg, if_neg (List.ne_of_not_mem_cons hj)]

/-- A return address at most 255 is a byte. -/
theorem returnAddress_toNat {n : Nat} (h : n + 2 ≤ 255) : (BitVec.ofNat 8 (n + 2)).toNat = n + 2 :=
  Nat.mod_eq_of_lt (by omega)

/-! ### The statements on one instruction -/

/-- Settles O36: the return address is checked before the push, and the register is read after it. -/
theorem callInstruction : Obligations.CallInstruction := by
  intro a s
  rw [exec_call]
  refine ⟨rfl, fun ra ha => ⟨?room, ?full, ?top⟩, fun ha => execCall_illegal ha s⟩
  case room =>
    intro hpc hsp
    refine ⟨_, execCall_ok ra ha (by omega) (BitVec.toNat_ne.1 hsp), ?_, ?_, fun adr hadr => ?_⟩
    · rw [State.jump_sp, State.store_sp, State.setSp_sp, pred_toNat_of_ne_zero hsp]
    · rw [State.jump_pc, zext9_toNat, State.jump_reg, State.store_reg]
    · obtain rfl : adr = s.sp.toNat - 1 := by omega
      refine ⟨?_, s.setSp_store_keeps _ _ _⟩
      rw [State.jump_cell, State.store_cell, if_pos rfl, returnAddress_toNat hpc]
  case full =>
    intro hpc hsp
    rw [execCall_zero ra ha (by omega) (congrArg BitVec.toNat hsp), fail_outOfBounds_mem]
    rfl
  case top =>
    intro hpc
    rw [execCall_top ra ha (by omega), fail_outOfBounds_mem]
    rfl

/-- Settles O37: 255 is the one stack pointer whose successor is past memory. -/
theorem returnInstruction : Obligations.ReturnInstruction := by
  intro s
  rw [exec_ret]
  refine ⟨rfl, fun hsp => ?_, fun hsp => ?_⟩
  · refine ⟨_, execRet_ok hsp, ?_, ?_, s.setSp_keeps _⟩
    · rw [State.jump_pc, zext9_toNat]
    · rw [State.jump_sp, State.setSp_sp, succ_toNat_of_ne_255 hsp]
  · rw [execRet_top hsp, fail_outOfBounds_mem]
    rfl

/-- Settles O30: the cell PUSH stores to is `x[7] - 1`, and the new `pc` is two more than the old. -/
theorem storedByteIsFetched : Obligations.StoredByteIsFetched := by
  intro a ra s ha hsp
  refine ⟨_, execPush_ok ra ha (by omega), ?_⟩
  have hlt := s.sp.isLt
  have hpc : (s.pc + 2#9).toNat = s.sp.toNat - 1 := by bv_omega
  rw [State.opcode, State.advance_pc, State.advance_cell, State.store_pc, State.setSp_pc, hpc, State.store_cell,
    if_pos rfl, State.advance_reg, State.store_reg]

/-! ### A push, then a pop -/

/-- The state with a byte pushed: `x[7]` one less, the byte in the cell it then points at (R200, R202). -/
def State.pushed (s : State) (v : Byte) : State := (s.setSp (s.sp - 1#8)).store (s.sp.toNat - 1) v

@[simp] theorem State.pushed_sp (s : State) (v : Byte) : (s.pushed v).sp = s.sp - 1#8 := by
  simp [State.pushed]

theorem State.pushed_reg_of_ne {j : RegIx} (h : j ≠ 7) (s : State) (v : Byte) : (s.pushed v).reg j = s.reg j := by
  simp [State.pushed, h]

/-- The pushed byte is on top of the stack. -/
theorem State.pushed_cell_sp {s : State} (h : s.sp ≠ 0#8) (v : Byte) :
    (s.pushed v).cell (s.sp - 1#8).toNat = v := by
  rw [State.pushed, State.store_cell, pred_toNat_of_ne_zero h, if_pos rfl]

/-- After a push the stack pointer is below 255, so a pop has room. -/
theorem pred_toNat_ne_255 {x : Byte} (h : x ≠ 0#8) : (x - 1#8).toNat ≠ 255 := by
  bv_omega

theorem execPush_eq_pushed {a : Byte} (r : RegIx) (ha : a.toNat = r.val) {s : State} (hsp : s.sp ≠ 0#8) :
    execPush a s = .next ((s.pushed (if r = 7 then s.sp - 1#8 else s.reg r)).advance 1) := by
  rw [execPush_ok r ha (BitVec.toNat_ne.1 hsp), State.setSp_reg, State.pushed]

theorem execCall_eq_pushed {a : Byte} (r : RegIx) (ha : a.toNat = r.val) {s : State} (hpc : s.pc.toNat + 2 ≤ 255)
    (hsp : s.sp ≠ 0#8) :
    execCall a s = .next ((s.pushed (BitVec.ofNat 8 (s.pc.toNat + 2))).jump
      (zext9 (if r = 7 then s.sp - 1#8 else s.reg r))) := by
  rw [execCall_ok r ha (by omega) (BitVec.toNat_ne.1 hsp), State.setSp_reg, State.pushed]

/-- Settles O38: the pop reads the cell the push wrote, and its stack pointer is the one before the push. -/
theorem pushThenPopRoundTrip : Obligations.PushThenPopRoundTrip := by
  intro a b ra rb s ha hb hrb hsp
  have hpop := execPop_ne_seven hb hrb ((s.pushed (if ra = 7 then s.sp - 1#8 else s.reg ra)).advance 1)
  simp only [State.advance_sp, State.pushed_sp, State.advance_cell, State.pushed_cell_sp hsp,
    if_neg (pred_toNat_ne_255 hsp), BitVec.sub_add_cancel] at hpop
  refine ⟨_, _, execPush_eq_pushed ra ha hsp, hpop, by simp, by simp [hrb], fun j hj => ?_⟩
  have hne : j ≠ rb := List.ne_of_not_mem_cons hj
  by_cases h7 : j = 7
  · simp [h7, State.sp_eq]
  · simp [h7, hne, State.pushed_reg_of_ne]

/-- Settles O39: RET pops the return address CALL pushed, and its stack pointer is the one before the call. -/
theorem callThenReturnComesBack : Obligations.CallThenReturnComesBack := by
  intro a ra s ha hpc hsp
  have hret := execRet_eq ((s.pushed (BitVec.ofNat 8 (s.pc.toNat + 2))).jump
    (zext9 (if ra = 7 then s.sp - 1#8 else s.reg ra)))
  simp only [State.jump_sp, State.pushed_sp, State.jump_cell, State.pushed_cell_sp hsp,
    if_neg (pred_toNat_ne_255 hsp), BitVec.sub_add_cancel] at hret
  refine ⟨_, _, execCall_eq_pushed ra ha hpc hsp, hret, ?_, fun j => ?_⟩
  · rw [State.jump_pc, zext9_toNat, returnAddress_toNat hpc]
  · by_cases h7 : j = 7
    · simp [h7, State.sp_eq]
    · simp [h7, State.pushed_reg_of_ne]

end Sys2Proof.Machine
end

section
/-! What every step keeps: the invariant of the machine, and what one step can change (10_state.md, 40_engine.md R121,
60_exceptions.md). Each statement about a step is read off `step_next_cases`. -/

namespace Sys2Proof.Machine

/-! ### The records an error leaves are legal -/

/-- No row of the Dispatch Table has a count of 3. -/
theorem dispatch_eq_none_of_countThree {ir : Byte} (h : operandCount ir = 3) : dispatch ir = none := by
  cases hd : dispatch ir with
  | none => rfl
  | some hh =>
    have harity := dispatch_arity hd
    rw [h] at harity
    cases hh <;> cases harity

theorem errRecord_invalidOpcode_legal {ir : Byte} (h : dispatch ir = none) : (errRecord (.invalidOpcode ir)).legal :=
  ⟨rfl, ir, by rw [h]; rfl, rfl⟩

theorem errRecord_pastMemory_legal : (errRecord (.outOfBounds .mem 256)).legal :=
  .inl rfl

theorem FetchCause.legal {s : State} {c : Cause} (hc : FetchCause s c) (hpc : s.pc.toNat ≤ 256) :
    (errRecord c).legal := by
  cases hc with
  | opcodeFetch h =>
    rw [show s.pc.toNat = 256 by omega]
    exact errRecord_pastMemory_legal
  | countThree _ h3 => exact errRecord_invalidOpcode_legal (dispatch_eq_none_of_countThree h3)
  | operandFetch => exact errRecord_pastMemory_legal
  | absent _ _ hd => exact errRecord_invalidOpcode_legal hd

/-- An illegal register byte is in 8..255 and nine bits hold it. -/
theorem errRecord_register_legal {a : Byte} (h : 7 < a.toNat) : (errRecord (.outOfBounds .reg a.toNat)).legal := by
  have hval : (errRecord (.outOfBounds .reg a.toNat)).val.toNat = a.toNat := by
    rw [errRecord, mask9_byte, zext9_toNat]
  have hlt := a.isLt
  show 8 ≤ (errRecord (.outOfBounds .reg a.toNat)).val.toNat ∧ (errRecord (.outOfBounds .reg a.toNat)).val.toNat ≤ 255
  omega

/-- A fetched CALL stands at 254 at most, so the return address it reports is 256. -/
theorem HandlerCause.legal {i : Instr} {s : State} {c : Cause} (hc : HandlerCause i s c) (hf : Fetched s i) :
    (errRecord c).legal := by
  obtain ⟨hmem, hop, -⟩ := hf
  rcases hc with ⟨a, -, ha, rfl⟩ | ⟨hdiv | hmod, rfl⟩ | ⟨hcall, hpc, rfl⟩ | ⟨-, rfl⟩ | ⟨-, rfl⟩
  · exact errRecord_register_legal ha
  · rw [hdiv]
    exact ⟨rfl, .inl rfl⟩
  · rw [hmod]
    exact ⟨rfl, .inr rfl⟩
  · have hcount : operandCount s.opcode = 1 := by rw [hop, hcall]; rfl
    rw [show s.pc.toNat = 254 by omega]
    exact errRecord_pastMemory_legal
  · exact .inr rfl
  · exact errRecord_pastMemory_legal

/-! ### The counter -/

/-- A fetched instruction that does not set `pc` leaves it after its bytes, at 256 at most: the sum does not wrap. -/
theorem Completed.pc_toNat {i : Instr} {s t : State} (ht : Completed i s t) (hf : Fetched s i)
    (hset : setsPc i = false) : t.pc.toNat = s.pc.toNat + 1 + operandCount s.opcode := by
  obtain ⟨hmem, hop, -⟩ := hf
  rw [ht.pcAdvance hset, ← hop, BitVec.toNat_add, BitVec.toNat_ofNat]
  omega

theorem Completed.pc_le {i : Instr} {s t : State} (ht : Completed i s t) (hf : Fetched s i) : t.pc.toNat ≤ 256 := by
  cases hset : setsPc i with
  | true => exact (ht.pcJump hset).trans (by omega)
  | false =>
    have hpc := ht.pc_toNat hf hset
    obtain ⟨hmem, -, -⟩ := hf
    omega

/-! ### The invariant -/

theorem State.Inv.fail {s : State} {c : Cause} (hs : s.Inv) (hc : (errRecord c).legal) : (s.fail c).Inv where
  memory := hs.memory
  counter := hs.counter
  record := hc
  running := fun h => nomatch h

theorem Completed.mem_wf {i : Instr} {s t : State} (ht : Completed i s t) (hs : Memory.wf s.mem = true) :
    Memory.wf t.mem = true := by
  rcases ht.mem with hmem | ⟨-, -, v, hmem⟩ <;> rw [hmem]
  · exact hs
  · exact memPut_wf v (by omega) hs

theorem State.Inv.completed {i : Instr} {s t : State} (hs : s.Inv) (hr : s.run = .running) (hf : Fetched s i)
    (ht : Completed i s t) : t.Inv where
  memory := ht.mem_wf hs.memory
  counter := ht.pc_le hf
  record := ht.err ▸ hs.record
  running := fun _ => ht.err.trans (hs.running hr)

/-- Settles O22: an error of the fetch or of the handler leaves a legal record and all else as it was; a completed
instruction records nothing. -/
theorem stepKeepsTheInvariant : Obligations.StepKeepsTheInvariant := by
  intro s t hs hstep
  rcases step_next_cases hstep with ⟨c, hc, rfl⟩ | ⟨i, hf, ⟨c, hc, rfl⟩ | ht⟩
  · exact hs.fail (hc.legal hs.counter)
  · exact hs.fail (hc.legal hf)
  · exact hs.completed (running_of_step hstep) hf ht

/-! ### Any number of steps -/

theorem run_succ_next {M : Host.Core} {n : Nat} {s t : M.State} (h : M.run (n + 1) s = .next t) :
    ∃ u, M.step s = .next u ∧ M.run n u = .next t := by
  rw [Host.Core.run] at h
  split at h
  · next u hu => exact ⟨u, hu, h⟩
  · cases h
  · cases h

/-- What every step keeps, every run keeps. -/
theorem run_keeps {M : Host.Core} {P : M.State → Prop} (hstep : ∀ s t, P s → M.step s = .next t → P t) (n : Nat)
    {s t : M.State} (hs : P s) (h : M.run n s = .next t) : P t := by
  induction n generalizing s with
  | zero =>
    obtain rfl : s = t := Host.Outcome.next.inj h
    exact hs
  | succ n ih =>
    obtain ⟨u, hu, hrest⟩ := run_succ_next h
    exact ih (hstep s u hs hu) hrest

/-- Settles O23, from O22. -/
theorem runKeepsTheInvariant : Obligations.RunKeepsTheInvariant :=
  fun n _ _ hs h => run_keeps (M := core) (P := State.Inv) stepKeepsTheInvariant n hs h

/-! ### What one step can change -/

/-- Settles O24: an error keeps `fl`, and so does every completed instruction but CMP. -/
theorem onlyCompareChangesFl : Obligations.OnlyCompareChangesFl := by
  intro s t hstep hne
  rcases step_next_fail_or_completed hstep with ⟨c, -, rfl⟩ | ⟨i, ⟨-, hop, -⟩, ht⟩
  · exact absurd rfl hne
  · exact hop.trans (ht.fl.resolve_left hne)

/-- Settles O25: an error keeps memory; a completed PUSH or CALL puts one byte below the old stack pointer. -/
theorem onlyPushAndCallStore : Obligations.OnlyPushAndCallStore := by
  intro s t hstep hne
  rcases step_next_fail_or_completed hstep with ⟨c, -, rfl⟩ | ⟨i, ⟨-, hop, -⟩, ht⟩
  · exact absurd rfl hne
  · obtain ⟨hi, hsp, v, hmem⟩ := ht.mem.resolve_left hne
    refine ⟨by rwa [hop], BitVec.toNat_ne.2 hsp, fun a ha => ?_⟩
    rw [State.cell, hmem, memGet_memPut, if_neg (List.ne_of_not_mem_cons ha), State.cell]

/-- Settles O26: an error emits nothing, and of the completed instructions only PRN does. -/
theorem onlyPrintExtendsOutput : Obligations.OnlyPrintExtendsOutput := by
  intro s t hstep
  rcases step_next_fail_or_completed hstep with ⟨c, -, rfl⟩ | ⟨i, ⟨-, hop, -⟩, ht⟩
  · exact .inl rfl
  · rw [hop]
    exact ht.out

/-- Settles O27: by O26 every step leaves `out` or extends it at its end. -/
theorem outputPersists : Obligations.OutputPersists := by
  intro n s t h
  refine run_keeps (M := core) (P := fun u : State => s.out <+: u.out) (fun u v hu hstep => ?_) n (List.prefix_refl _) h
  rcases onlyPrintExtendsOutput u v hstep with hout | ⟨-, b, hout⟩ <;> rw [hout]
  · exact hu
  · exact hu.trans (List.prefix_append _ _)

/-- Settles O18: a completed instruction keeps the record, so the step is an error entry. -/
theorem errorsArePrecise : Obligations.ErrorsArePrecise := by
  intro s t hnone hstep hne
  rcases step_next_fail_or_completed hstep with ⟨c, -, rfl⟩ | ⟨i, -, ht⟩
  · exact ⟨rfl, rfl, rfl, rfl, rfl, rfl⟩
  · rw [ht.err] at hne
    exact absurd hnone hne

/-- Settles O20: a step records an error of another kind, or keeps the record. -/
theorem unsupportedAluNeverRaised : Obligations.UnsupportedAluNeverRaised := by
  intro s t hne hstep
  rcases step_next_fail_or_completed hstep with ⟨c, hkind, rfl⟩ | ⟨i, -, ht⟩
  · rw [State.fail_err]
    rcases hkind with hkind | hkind | hkind <;> rw [hkind] <;> decide
  · rwa [ht.err]

/-! ### The program counter -/

theorem setsPc_eq_false {i : Instr} (hcall : ∀ a, i ≠ .call a) (hret : i ≠ .ret) : setsPc i = false := by
  cases i with
  | call a => exact absurd rfl (hcall a)
  | ret => exact absurd rfl hret
  | _ => rfl

/-- A completed instruction: `exec` answers and records no error. -/
theorem completed_of_exec {i : Instr} {s t : State} (h : exec i s = .next t) (hnone : t.err.kind = .none) :
    Completed i s t := by
  rcases exec_answers i s with ⟨c, -, he⟩ | ⟨u, hu, he⟩ <;> cases he.symm.trans h
  · exact absurd hnone (errRecord_kind_ne_none c)
  · exact hu

/-- A completed CALL leaves the value its register has after the push. -/
theorem execCall_pc {a : Byte} (r : RegIx) (ha : a.toNat = r.val) {s t : State} (h : execCall a s = .next t)
    (hnone : t.err.kind = .none) : t.pc = zext9 (t.reg r) := by
  by_cases hpc : 254 ≤ s.pc.toNat
  · cases (execCall_top r ha hpc).symm.trans h
    cases hnone
  by_cases hsp : s.sp.toNat = 0
  · cases (execCall_zero r ha (by omega) hsp).symm.trans h
    cases hnone
  · cases (execCall_ok r ha (by omega) hsp).symm.trans h
    rfl

/-- A completed RET leaves the byte at the old stack pointer. -/
theorem execRet_pc {s t : State} (h : execRet s = .next t) (hnone : t.err.kind = .none) :
    t.pc = zext9 (s.cell s.sp.toNat) := by
  rw [execRet_eq] at h
  split at h <;> cases h
  · cases hnone
  · rfl

/-- Settles O14: the advance is one plus the operand count, the length of the encoding; CALL and RET are apart. -/
theorem counterAdvance : Obligations.CounterAdvance := by
  intro i s t h _ hnone
  refine ⟨fun hcall hret => ?advance, ?call, ?ret⟩
  case advance =>
    have hpc := (completed_of_exec h hnone).pcAdvance (setsPc_eq_false hcall hret)
    rw [← encode_length] at hpc
    refine ⟨hpc, fun hfit => ?_⟩
    rw [hpc, BitVec.toNat_add, BitVec.toNat_ofNat]
    omega
  case call =>
    rintro a ra rfl ha
    exact execCall_pc ra ha h hnone
  case ret =>
    rintro rfl
    exact execRet_pc h hnone

/-- Settles O15: an error keeps `pc`, CALL and RET leave a byte, and any other instruction leaves the address after its
last byte. -/
theorem counterRange : Obligations.CounterRange := by
  intro s t hnone hpc hstep
  rw [extractLsb_toNat_eq_operandCount]
  rcases step_next_fail_or_completed hstep with ⟨c, -, rfl⟩ | ⟨i, hf, ht⟩
  · have herr : (s.fail c).err.kind ≠ .none := errRecord_kind_ne_none c
    have hkept : (s.fail c).pc.toNat ≤ 255 := hpc
    exact ⟨by omega, fun h => absurd h (by omega), fun h => absurd h.1 herr⟩
  · refine ⟨ht.pc_le hf, ?_⟩
    have herr : t.err.kind = .none := ht.err ▸ hnone
    have hset := setsPc_iff i
    have ⟨_, hop, _⟩ := hf
    rw [← hop] at hset
    cases hs : setsPc i with
    | true =>
      have hjump := ht.pcJump hs
      constructor
      · omega
      · rintro ⟨-, hcall, hret, -⟩
        exact ((hset.1 hs).elim hcall hret).elim
    | false =>
      rw [hs] at hset
      obtain ⟨hcall, hret⟩ := not_or.1 (hset.not.1 Bool.false_ne_true)
      rw [ht.pc_toNat hf hs]
      exact ⟨fun h => ⟨herr, hcall, hret, h⟩, fun ⟨_, _, _, h⟩ => h⟩

end Sys2Proof.Machine
end
